-- ==== Sys2Proof/Word.lean ====
section
/-! DEFINITION. The bit-vector types the spec treats as bits: the command word (30_encoding.md R50), its two fields (R51,
R52), the buffer's byte and the stream's bit (20_memory.md R30, R32). Counts, lengths and positions are natural numbers
(00_scope.md R8: "All values in pseudocode are mathematical naturals or integers unless a width is written"). -/

namespace Sys2Proof

/-- A command word (30_encoding.md R50): 32 bits, presented whole. -/
abbrev Word := BitVec 32

/-- The field OP of a command word (R51). -/
abbrev OpField := BitVec 4

/-- The field ARG of a command word (R52). -/
abbrev ArgField := BitVec 28

/-- A byte of the buffer or of a LOAD payload. -/
abbrev Byte := BitVec 8

/-- One bit of the stream, 0 or 1. -/
abbrev Bit := BitVec 1

end Sys2Proof
end

