-- ==== Sys2Proof/Syntax.lean ====
section
/-! DEFINITION. The eight commands of 30_encoding.md R53, one constructor each. READ_UE and READ_SE are names of
`readExpGolomb false` and `readExpGolomb true` (R65). The payload bytes of LOAD come on the data-in channel (R58) and are
not part of the command word. -/

namespace Sys2Proof

/-- A command (30_encoding.md R53); a count is the natural number that ARG codes (R54). -/
inductive Instr where
  /-- LOAD n (40_cursor_primitive.md R70) -/
  | load (n : Nat)
  /-- READ_BIT (R74) -/
  | readBit
  /-- READ_BITS n (41_multibit_readers.md R90) -/
  | readBits (n : Nat)
  /-- READ_UINT n (R94) -/
  | readUint (n : Nat)
  /-- READ_BYTE (R97) -/
  | readByte
  /-- READ_BYTES n (R98) -/
  | readBytes (n : Nat)
  /-- READ_EXP_GOLOMB s, `signed` being s = 1 (42_exp_golomb.md R110) -/
  | readExpGolomb (signed : Bool)
  /-- REMAINING_BITS (40_cursor_primitive.md R78) -/
  | remainingBits
deriving DecidableEq, Repr

end Sys2Proof
end

