-- ==== Sys2Proof/WellFormed.lean ====
section
/-! DEFINITION. Which instructions a command word can express: a count operand is a 28-bit number (30_encoding.md R52,
R54; 00_scope.md R6). -/

namespace Sys2Proof

/-- `n` fits the 28-bit operand field (30_encoding.md R54: "0 .. 2^28 - 1"). -/
def countFits (n : Nat) : Bool := decide (n < 2 ^ 28)

/-- The instruction can be written as a command word. -/
def Instr.wf : Instr → Bool
  | .load n => countFits n
  | .readBit => true
  | .readBits n => countFits n
  | .readUint n => countFits n
  | .readByte => true
  | .readBytes n => countFits n
  | .readExpGolomb _ => true
  | .remainingBits => true

end Sys2Proof
end

