-- ==== Sys2Proof/Decode.lean ====
section
/-! DEFINITION. Decoding a command word, total on all 2^32 words and rejecting by name (30_encoding.md R51 to R57), and
after it the encoder, written from the table of R53. -/

namespace Sys2Proof

/-- Why a word is no command (30_encoding.md R55, R56). Both execute as the failure Illegal. -/
inductive DecodeError where
  /-- OP is 0x0 or 0x9 to 0xF (R55) -/
  | reservedOpcode (op : OpField)
  /-- OP is assigned, and operand bits that must be zero are not (R56) -/
  | reservedArgument (op : OpField) (arg : ArgField)
deriving DecidableEq, Repr

/-- `OP = c[31:28]` (30_encoding.md R51). -/
def opField (c : Word) : OpField := c.extractLsb' 28 4

/-- `ARG = c[27:0]` (30_encoding.md R52). -/
def argField (c : Word) : ArgField := c.extractLsb' 0 28

/-- Operand use (c) of 30_encoding.md R52: ARG must be zero. -/
def decodeNoOperand (i : Instr) (op : OpField) (arg : ArgField) : Except DecodeError Instr :=
  if arg = 0 then .ok i else .error (.reservedArgument op arg)

/-- Operand use (b) of 30_encoding.md R52: the flag is ARG[0], and ARG[27:1] must be zero. -/
def decodeFlag (make : Bool → Instr) (op : OpField) (arg : ArgField) : Except DecodeError Instr :=
  if arg.extractLsb' 1 27 = 0 then .ok (make (arg.getLsbD 0)) else .error (.reservedArgument op arg)

/-- The command a word names, or why it names none (30_encoding.md R53, R55, R56). Operand use (a) of R52 is
`arg.toNat`. -/
def decode (c : Word) : Except DecodeError Instr :=
  let op := opField c
  let arg := argField c
  match op.toNat with
  | 0x1 => .ok (.load arg.toNat)
  | 0x2 => decodeNoOperand .readBit op arg
  | 0x3 => .ok (.readBits arg.toNat)
  | 0x4 => .ok (.readUint arg.toNat)
  | 0x5 => decodeNoOperand .readByte op arg
  | 0x6 => .ok (.readBytes arg.toNat)
  | 0x7 => decodeFlag .readExpGolomb op arg
  | 0x8 => decodeNoOperand .remainingBits op arg
  | _ => .error (.reservedOpcode op)

/-- OP and ARG put into one word, OP above ARG (30_encoding.md R50 to R52). -/
def commandWord (op : OpField) (arg : ArgField) : Word := BitVec.ofNat 32 (op.toNat * 2 ^ 28 + arg.toNat)

/-- The code value of each command (30_encoding.md R53). -/
def opcodeOf : Instr → OpField
  | .load _ => 0x1
  | .readBit => 0x2
  | .readBits _ => 0x3
  | .readUint _ => 0x4
  | .readByte => 0x5
  | .readBytes _ => 0x6
  | .readExpGolomb _ => 0x7
  | .remainingBits => 0x8

/-- The operand field of each command (30_encoding.md R52, R53, R54). -/
def operandOf : Instr → ArgField
  | .load n => BitVec.ofNat 28 n
  | .readBit => 0
  | .readBits n => BitVec.ofNat 28 n
  | .readUint n => BitVec.ofNat 28 n
  | .readByte => 0
  | .readBytes n => BitVec.ofNat 28 n
  | .readExpGolomb signed => if signed then 1 else 0
  | .remainingBits => 0

/-- The command word of a well-formed instruction (30_encoding.md R53). -/
def encode (i : Instr) : Word := commandWord (opcodeOf i) (operandOf i)

/-- The number of payload bytes that follow the word on the data-in channel (30_encoding.md R58: "a decoder knows the
length of the payload from `N` alone"). -/
def payloadLength : Instr → Nat
  | .load n => n
  | .readBit => 0
  | .readBits _ => 0
  | .readUint _ => 0
  | .readByte => 0
  | .readBytes _ => 0
  | .readExpGolomb _ => 0
  | .remainingBits => 0

/-- One row of the opcode table as data: a word is of the row exactly if it agrees with `pattern` where `mask` has ones
(spec/opcode_table.json, whose `match` and `mask` it copies). -/
structure OpcodeRow where
  mnemonic : String
  pattern : Word
  mask : Word
deriving DecidableEq, Repr

/-- The eight rows of spec/opcode_table.json. -/
def opcodeTable : List OpcodeRow :=
  [⟨"LOAD", 0x10000000, 0xF0000000⟩, ⟨"READ_BIT", 0x20000000, 0xFFFFFFFF⟩, ⟨"READ_BITS", 0x30000000, 0xF0000000⟩,
   ⟨"READ_UINT", 0x40000000, 0xF0000000⟩, ⟨"READ_BYTE", 0x50000000, 0xFFFFFFFF⟩, ⟨"READ_BYTES", 0x60000000, 0xF0000000⟩,
   ⟨"READ_EXP_GOLOMB", 0x70000000, 0xFFFFFFFE⟩, ⟨"REMAINING_BITS", 0x80000000, 0xFFFFFFFF⟩]

/-- The word agrees with the row's pattern under its mask. -/
def OpcodeRow.accepts (r : OpcodeRow) (c : Word) : Bool := c &&& r.mask == r.pattern

/-- The row of spec/opcode_table.json that each command stands for. -/
def Instr.mnemonic : Instr → String
  | .load _ => "LOAD"
  | .readBit => "READ_BIT"
  | .readBits _ => "READ_BITS"
  | .readUint _ => "READ_UINT"
  | .readByte => "READ_BYTE"
  | .readBytes _ => "READ_BYTES"
  | .readExpGolomb _ => "READ_EXP_GOLOMB"
  | .remainingBits => "REMAINING_BITS"

/-- The instruction the decoder reads from a table word of `nbits` bits (log 2): a command is one 32-bit word, so a number
with a bit at 32 or above is no command word. -/
def decodeTableWord (nbits w : Nat) : Option Instr :=
  let c := w % 2 ^ nbits
  if c < 2 ^ 32 then (decode (BitVec.ofNat 32 c)).toOption else none

end Sys2Proof
end

