-- ==== Sys2Proof/Machine/Memory.lean ====
section
/-! DEFINITION. The data buffer as memory (20_memory.md R30, R39): a list of (address, byte) pairs, addresses strictly
rising, that lists the bytes written so far. What an address that is not listed reads as is `Memory.unlisted`: the spec
leaves such a byte unspecified and unobservable (10_state.md R11, R24; 93_implementation_defined.md U10), and the model
gives it no value (log 5). -/

namespace Sys2Proof.Machine

/-- The contents of the buffer: the bytes that have been written. -/
abbrev Memory := List Host.Cell

/-- What an address that nothing has written reads as: no value (DESIGN CHOICE, log 5; safe). -/
def Memory.unlisted (_a : Nat) : Option Byte := none

/-- MemRead(a, 1) (00_scope.md R8). -/
def Memory.read : Memory → Nat → Option Byte
  | [], a => Memory.unlisted a
  | c :: m, a => if c.1 = a then some c.2 else Memory.read m a

/-- MemWrite(a, 1, v) (00_scope.md R8), keeping the addresses strictly rising. -/
def Memory.write : Memory → Nat → Byte → Memory
  | [], a, v => [(a, v)]
  | c :: m, a, v =>
    if a < c.1 then (a, v) :: c :: m
    else if a = c.1 then (a, v) :: m
    else c :: Memory.write m a v

/-- The bytes of a payload written at `a`, `a + 1`, and so on, in index order (40_cursor_primitive.md R70, the loop). -/
def Memory.writeFrom (m : Memory) (a : Nat) : List Byte → Memory
  | [] => m
  | b :: bs => Memory.writeFrom (Memory.write m a b) (a + 1) bs

/-- The canonical form: addresses strictly rising, and no entry equal to what an unlisted address reads as. -/
abbrev Memory.wf (m : Memory) : Prop :=
  (m.map Prod.fst).Pairwise (· < ·) ∧ ∀ c ∈ m, some c.2 ≠ Memory.unlisted c.1

end Sys2Proof.Machine
end

