-- ==== Sys2Proof/Config.lean ====
section
/-! DEFINITION. The build parameters of the unit (00_scope.md R4, R5), which the spec leaves OPEN as arguments of the
model (92_eei_decisions.md D6, D10). They are plain data that State carries and nothing writes (log 1), so a statement
about every state is a statement about every W and every CAP. There are no free values: the spec leaves no result of a
command undefined (93_implementation_defined.md, section 1). -/

namespace Sys2Proof

/-- The result width W: a number of bits, or inf for no bound (00_scope.md R4). -/
inductive Width where
  | finite (bits : Nat)
  | inf
deriving DecidableEq, Repr

/-- The build parameters (00_scope.md R4, R5). -/
structure Config where
  /-- Result width in bits. -/
  W : Width
  /-- Buffer capacity in bytes. -/
  CAP : Nat
deriving DecidableEq, Repr

/-- The largest value of the 28-bit operand field (00_scope.md R5, R6). -/
def maxCount : Nat := 2 ^ 28 - 1

/-- W is at least 8, or inf (00_scope.md R4). -/
def Width.legal : Width → Bool
  | .finite w => decide (8 ≤ w)
  | .inf => true

/-- The parameter values the spec admits (00_scope.md R4, R5). -/
def Config.legal (c : Config) : Bool := c.W.legal && decide (c.CAP ≤ maxCount)

/-- The spec's reference instantiation: W = 64 (00_scope.md R4), CAP = 2^28 - 1 (00_scope.md R5; 95_test_vectors.md).
DESIGN CHOICE (log 1): only State.reset uses it. -/
def Config.reference : Config := ⟨.finite 64, maxCount⟩

end Sys2Proof
end

