-- ==== Sys2Proof/Machine/Response.lean ====
section
/-! DEFINITION. What the unit answers to a command (30_encoding.md R60 to R62): a status and, exactly when the status is
OK, a payload. A failure carries no value at all (60_exceptions.md R136; 93_implementation_defined.md U2). -/

namespace Sys2Proof.Machine

/-- The three kinds of failure (60_exceptions.md R130). -/
inductive Failure where
  /-- a bit was requested when none remained (R131) -/
  | endOfStream
  /-- an unsigned fold of more than W bits was requested (R132) -/
  | widthOverflow
  /-- the word does not decode, or LOAD exceeds CAP (R133) -/
  | illegal
deriving DecidableEq, Repr

/-- The status of a response (30_encoding.md R61). -/
inductive Status where
  | ok
  | endOfStream
  | widthOverflow
  | illegal
deriving DecidableEq, Repr

/-- The 2-bit status codes (30_encoding.md R61). -/
def Status.code : Status → BitVec 2
  | .ok => 0
  | .endOfStream => 1
  | .widthOverflow => 2
  | .illegal => 3

/-- The status that reports a failure (60_exceptions.md R130). -/
def Failure.status : Failure → Status
  | .endOfStream => .endOfStream
  | .widthOverflow => .widthOverflow
  | .illegal => .illegal

/-- A W-bit result in its port form (30_encoding.md R62): W bits when W is finite, the integer itself when W = inf. -/
inductive ResultWord where
  | bits (w : Nat) (v : BitVec w)
  | exact (v : Int)
deriving DecidableEq, Repr

/-- The unsigned reading of a result. -/
def ResultWord.unsignedValue : ResultWord → Int
  | .bits _ v => (v.toNat : Int)
  | .exact v => v

/-- The signed reading of a result: two's complement when W is finite (42_exp_golomb.md R117). -/
def ResultWord.signedValue : ResultWord → Int
  | .bits _ v => v.toInt
  | .exact v => v

/-- The result is on a port of width W (30_encoding.md R60). -/
def ResultWord.onPort : ResultWord → Width → Bool
  | .bits w _, .finite W => w == W
  | .exact _, .inf => true
  | .bits _ _, .inf => false
  | .exact _, .finite _ => false

/-- The payload of a successful response, one form per row of the table of 30_encoding.md R60. -/
inductive Payload where
  /-- LOAD: no payload -/
  | empty
  /-- READ_BIT: one bit -/
  | bit (b : Bit)
  /-- READ_BITS: the bits in the order read -/
  | bits (bs : List Bit)
  /-- READ_UINT and READ_EXP_GOLOMB: one value of width W -/
  | result (r : ResultWord)
  /-- READ_BYTE: one unsigned value of 8 bits -/
  | byte (b : Byte)
  /-- READ_BYTES: the bytes in the order read -/
  | bytes (bs : List Byte)
  /-- REMAINING_BITS: one unsigned value of 32 bits -/
  | count (c : BitVec 32)
deriving DecidableEq, Repr

/-- A response (30_encoding.md R60): "The payload is present exactly when `STATUS = OK`". -/
inductive Response where
  | ok (p : Payload)
  | failed (f : Failure)
deriving DecidableEq, Repr

/-- The status field of a response (30_encoding.md R61). -/
def Response.status : Response → Status
  | .ok _ => .ok
  | .failed f => f.status

/-- The payload field of a response, absent on failure (30_encoding.md R60). -/
def Response.payload : Response → Option Payload
  | .ok p => some p
  | .failed _ => none

end Sys2Proof.Machine
end

