-- ==== Sys2Proof/Machine/State.lean ====
section
/-! DEFINITION. The state of the machine, plain data (10_state.md R10 to R13, R24), with the build parameters (00_scope.md
R4, R5) and the host's side of the command port (30_encoding.md R58, R60, R63), and the two ways a step can stop. -/

namespace Sys2Proof.Machine

/-- A LOAD that has been taken and whose payload is not complete (30_encoding.md R58: "the unit accepts no other command
until it has taken all `n` bytes"). -/
structure LoadProgress where
  /-- The count operand. -/
  count : Nat
  /-- The payload bytes taken so far, byte 0 first. -/
  taken : List Byte
deriving DecidableEq, Repr

/-- The reset line. A reset "that arrives while a command is executing abandons the command"
(70_reset_and_hazards.md R151), and a command is one step, so the line says where in that step the reset arrives (log 4). -/
inductive ResetLine where
  /-- No reset is asserted. -/
  | released
  /-- The reset arrives before the unit takes anything more from the port. -/
  | atOnce
  /-- The reset arrives while the next command is executing, `taken` bytes of its payload after the unit took its word or,
  of a LOAD that waits, after the unit went on with it. -/
  | during (taken : Nat)
deriving DecidableEq, Repr

/-- The state. `BUF`, `LEN` and `POS` are "the whole architectural state of the unit" (10_state.md R10); the other fields
are the build parameters, the command in progress, and the command port as the host and the unit share it. -/
structure State where
  /-- The build parameters W and CAP (00_scope.md R4, R5); nothing writes them (log 1). -/
  cfg : Config
  /-- The data buffer (10_state.md R11). -/
  BUF : Memory
  /-- The number of bytes loaded (10_state.md R12). -/
  LEN : Nat
  /-- The number of bits consumed (10_state.md R13). -/
  POS : Nat
  /-- The command in progress (10_state.md R24): none, or a LOAD that waits for payload (30_encoding.md R58; log 3). -/
  inProgress : Option LoadProgress
  /-- Command words the host has presented and the unit has not taken, the next one first (R63; log 2). -/
  cmdIn : List Word
  /-- Payload bytes on the data-in channel that the unit has not taken, the next one first (R58; log 2). -/
  dataIn : List Byte
  /-- The reset the host has asserted and the unit has not yet performed (70_reset_and_hazards.md R150, R151; log 4). -/
  resetIn : ResetLine
  /-- The responses delivered so far, oldest first (30_encoding.md R60; 70_reset_and_hazards.md R161; log 7). -/
  responses : List Response
deriving DecidableEq, Repr

/-- The one way the machine can stop with a fault. -/
inductive Fault where
  /-- Raised by `nextBit` when it would read a byte of the buffer that nothing has written. 10_state.md R22 (d) rules the
  case out: no state that meets the invariant raises it. Safe (log 5): the model stops instead of making up a byte. -/
  | unloadedByte (a : Nat)
deriving DecidableEq, Repr

/-- Why the model would give a command no meaning. -/
inductive Refusal where
  /-- Raised by an arm of `exec` that has no meaning yet. No arm is left without one. Safe. -/
  | notModelled (mnemonic : String)
deriving DecidableEq, Repr

/-- The state right after reset of a unit built with the parameters `c` (10_state.md R24): nothing loaded, nothing
consumed, no command in progress, no response; and nothing presented at the port (DESIGN CHOICE, log 2). -/
def State.resetWith (c : Config) : State where
  cfg := c
  BUF := []
  LEN := 0
  POS := 0
  inProgress := none
  cmdIn := []
  dataIn := []
  resetIn := .released
  responses := []

/-- The state right after reset, for the spec's reference parameters (DESIGN CHOICE, log 1). -/
def State.reset : State := State.resetWith Config.reference

end Sys2Proof.Machine
end

