-- ==== Sys2Proof/Machine/Flags.lean ====
section
/-! DEFINITION. The conditions the commands test. The unit has no flags, condition codes or predicates (10_state.md R18):
each of these is computed from the state or from an operand and stored nowhere. -/

namespace Sys2Proof.Machine

/-- `remaining_bits = 8 * LEN - POS` (10_state.md R17). -/
def remainingBits (s : State) : Nat := 8 * s.LEN - s.POS

/-- EXHAUSTED, no bit remains (10_state.md R18). R22 (b) has `POS <= 8 * LEN`, so this is `POS = 8 * LEN`; it is written
with an inequality so that no state whatever reads past the data (DESIGN CHOICE, log 6; safe). -/
def exhausted (s : State) : Bool := decide (8 * s.LEN ≤ s.POS)

/-- The width check `n > W` (41_multibit_readers.md R96, 42_exp_golomb.md R113); with W = inf it never fires. -/
def exceedsWidth (W : Width) (n : Nat) : Bool :=
  match W with
  | .finite w => decide (w < n)
  | .inf => false

/-- The capacity check of LOAD, `n > CAP` (30_encoding.md R59). -/
def exceedsCapacity (c : Config) (n : Nat) : Bool := decide (c.CAP < n)

end Sys2Proof.Machine
end

