-- ==== Sys2Proof/Machine/Operands.lean ====
section
/-! DEFINITION. The value forms of the commands: the bit a byte holds at a stream offset (20_memory.md R32), the fold of a
bit sequence (41_multibit_readers.md R95), the sign mapping (42_exp_golomb.md R115), and the port forms of the results
(30_encoding.md R62, 42_exp_golomb.md R117). The operand forms of the command word itself, a count and a flag
(30_encoding.md R52, R54), are read in Decode.lean. -/

namespace Sys2Proof.Machine

/-- Bit number `j` of a byte in stream order, `B[7 - j]` (20_memory.md R31, R32): 0 is the most significant bit. -/
def bitOfByte (B : Byte) (j : Nat) : Bit := B.extractLsb' (7 - j) 1

/-- `Fold(s)` (41_multibit_readers.md R95), by its recursion from the left: `Fold([]) = 0` and
`Fold(s ++ [b]) = 2 * Fold(s) + b`. -/
def fold (s : List Bit) : Nat := s.foldl (fun v b => 2 * v + b.toNat) 0

/-- Step 4 of the Exp-Golomb decode for `s = 1` (42_exp_golomb.md R115). -/
def signMap (code : Nat) : Int :=
  if code % 2 = 0 then -((code / 2 : Nat) : Int) else (((code + 1) / 2 : Nat) : Int)

/-- The port form of an unsigned result: `zext_W(v)`, or the integer when W = inf (30_encoding.md R62). -/
def unsignedResult (W : Width) (v : Nat) : ResultWord :=
  match W with
  | .finite w => .bits w (BitVec.ofNat w v)
  | .inf => .exact v

/-- The port form of a signed result: `sext_W(v)`, or the integer when W = inf (30_encoding.md R62). -/
def signedResult (W : Width) (v : Int) : ResultWord :=
  match W with
  | .finite w => .bits w (BitVec.ofInt w v)
  | .inf => .exact v

/-- The result of an Exp-Golomb decode from its code (42_exp_golomb.md R110, step 4, and R117). -/
def expGolombResult (W : Width) (signed : Bool) (code : Nat) : ResultWord :=
  if signed then signedResult W (signMap code) else unsignedResult W code

/-- The value of 8 bits as a byte, `zext_8(Fold(s))` (41_multibit_readers.md R97). -/
def byteOfBits (s : List Bit) : Byte := BitVec.ofNat 8 (fold s)

/-- `zext_32(v)`, the port form of the remaining-bit count (40_cursor_primitive.md R78). -/
def countResult (v : Nat) : BitVec 32 := BitVec.ofNat 32 v

end Sys2Proof.Machine
end

