-- ==== Sys2Proof/Machine/Ops.lean ====
section
/-! DEFINITION. The named operations every command is built from: the updates of the state, ending a command by a response,
the failure (60_exceptions.md R136), the bit primitive and its compositions (40_cursor_primitive.md R72), the taking of a
LOAD payload (30_encoding.md R58), the reset event (70_reset_and_hazards.md R150), and fetching from the command port. -/

namespace Sys2Proof.Machine

/-! ## Updates of the state -/

/-- `POS <- POS + 1` (40_cursor_primitive.md R72), the only way a read changes the state. -/
def State.advance (s : State) : State := { s with POS := s.POS + 1 }

/-- A response is delivered to the host (30_encoding.md R60). -/
def State.deliver (s : State) (r : Response) : State := { s with responses := s.responses ++ [r] }

/-- A new cursor over `bytes` (40_cursor_primitive.md R70): the bytes written from index 0 on, `LEN <- n`, `POS <- 0`.
Bytes of the buffer at and above `n` are not written. -/
def State.construct (s : State) (n : Nat) (bytes : List Byte) : State :=
  { s with BUF := s.BUF.writeFrom 0 bytes, LEN := n, POS := 0 }

/-- Up to `k` bytes leave the data-in channel (30_encoding.md R58); they are `s.dataIn.take k`. -/
def State.takeData (s : State) (k : Nat) : State := { s with dataIn := s.dataIn.drop k }

/-- What command is in progress. -/
def State.setProgress (s : State) (p : Option LoadProgress) : State := { s with inProgress := p }

/-- The words that wait at the command port. -/
def State.setCommands (s : State) (ws : List Word) : State := { s with cmdIn := ws }

/-- The reset event (70_reset_and_hazards.md R150 to R152): `LEN <- 0`, `POS <- 0`, no command in progress, no response for
the abandoned command; the parameters and the bytes of the buffer are left alone. What the host has presented and the unit
has not taken stays presented (DESIGN CHOICE, log 4). -/
def State.resetEvent (s : State) : State := { s with LEN := 0, POS := 0, inProgress := none, resetIn := .released }

/-- The payload bytes that follow a word on the data-in channel (30_encoding.md R58): none unless the word is a LOAD. -/
def wordPayload (c : Word) : Nat :=
  match decode c with
  | .ok i => payloadLength i
  | .error _ => 0

/-- The payload bytes still to come of the command that is executing or is next (30_encoding.md R58). -/
def State.payloadDue (s : State) : Nat :=
  match s.inProgress with
  | some p => p.count - p.taken.length
  | none =>
    match s.cmdIn with
    | [] => 0
    | c :: _ => wordPayload c

/-- What a command that a reset cuts has taken from the port (70_reset_and_hazards.md R151): its word, unless it is a LOAD
that was waiting, and up to `k` of the payload bytes due. Nothing else it has done outlives the reset: "the state is that of
rule R150 whatever the command had done". That the port does not get them back is the model's (log 4). -/
def State.takeCut (s : State) (k : Nat) : State :=
  { s with
    cmdIn :=
      match s.inProgress with
      | some _ => s.cmdIn
      | none => s.cmdIn.tail
    dataIn := s.dataIn.drop (min k s.payloadDue) }

/-! ## Ending a command -/

/-- The command ends with a response (30_encoding.md R60). -/
def respond (r : Response) (s : State) : Host.Outcome State Fault Refusal := .next (s.deliver r)

/-- `raise F`, taking a failure (60_exceptions.md R136): the command ends, every `POS` advance already made stays, BUF and
LEN are untouched, and the response is F with no payload. "Control goes nowhere": no register saves anything, there is no
handler, and so no return from a failure and nothing to restore (R139). -/
def raise (f : Failure) (s : State) : Host.Outcome State Fault Refusal := respond (.failed f) s

/-- What a piece of a command's pseudocode comes to: a value and the state after it, a failure and the state it was raised
in, or the model's own fault. -/
inductive Taken (α : Type) where
  | got (v : α) (s : State)
  | failed (f : Failure) (s : State)
  | fault (r : Fault)

/-- Sequencing: the rest of the command runs only after a value; a failure is "propagated ... unchanged"
(40_cursor_primitive.md R75). -/
def Taken.andThen {α β : Type} (t : Taken α) (k : α → State → Taken β) : Taken β :=
  match t with
  | .got v s => k v s
  | .failed f s => .failed f s
  | .fault r => .fault r

/-- The end of a command: `return OK(v)` or `raise F` (00_scope.md R8). -/
def Taken.finish (t : Taken Payload) : Host.Outcome State Fault Refusal :=
  match t with
  | .got p s => respond (.ok p) s
  | .failed f s => raise f s
  | .fault r => .fault r

/-! ## The bit primitive and what is built on it -/

/-- `NextBit()` (40_cursor_primitive.md R72, R73): the exhaustion check first, then bit `7 - (POS mod 8)` of byte
`BUF[POS div 8]`, then `POS <- POS + 1`. -/
def nextBit (s : State) : Taken Bit :=
  if exhausted s then .failed .endOfStream s
  else
    match s.BUF.read (s.POS / 8) with
    | some B => .got (bitOfByte B (s.POS % 8)) s.advance
    | none => .fault (.unloadedByte (s.POS / 8))

/-- `n` sequential calls of NextBit, the bits in the order read (41_multibit_readers.md R90). -/
def takeBits : Nat → State → Taken (List Bit)
  | 0, s => .got [] s
  | n + 1, s => (nextBit s).andThen fun b s => (takeBits n s).andThen fun bs s => .got (b :: bs) s

/-- Eight calls of NextBit folded to one byte (41_multibit_readers.md R97). -/
def takeByte (s : State) : Taken Byte := (takeBits 8 s).andThen fun bs s => .got (byteOfBits bs) s

/-- `n` bytes, one after the other (41_multibit_readers.md R98). -/
def takeBytes : Nat → State → Taken (List Byte)
  | 0, s => .got [] s
  | n + 1, s => (takeByte s).andThen fun b s => (takeBytes n s).andThen fun bs s => .got (b :: bs) s

/-- Step 1 of the Exp-Golomb decode (42_exp_golomb.md R111): bits up to and including the first 1. `fuel` is the number of
remaining bits; when it is 0 the call of NextBit raises EndOfStream (R119), so the scan has no length limit of its own. -/
def scanPrefix : Nat → State → Taken (List Bit)
  | 0, s => (nextBit s).andThen fun b s => .got [b] s
  | fuel + 1, s =>
    (nextBit s).andThen fun b s =>
      if b = 1 then .got [b] s else (scanPrefix fuel s).andThen fun bs s => .got (b :: bs) s

/-- Steps 1 and 2 of the Exp-Golomb decode (42_exp_golomb.md R111, R112): the working sequence, a prefix of length k and
`k - 1` suffix bits. -/
def takeWorkingSequence (s : State) : Taken (List Bit) :=
  (scanPrefix (remainingBits s) s).andThen fun pre s =>
    (takeBits (pre.length - 1) s).andThen fun suffix s => .got (pre ++ suffix) s

/-- Steps 3 and 4 of the Exp-Golomb decode (42_exp_golomb.md R113 to R115): the width check on the number of bits folded,
`code = Fold(seq) - 1`, and the sign mapping. -/
def decodeExpGolomb (signed : Bool) (seq : List Bit) (s : State) : Taken Payload :=
  if exceedsWidth s.cfg.W seq.length then .failed .widthOverflow s
  else .got (.result (expGolombResult s.cfg.W signed (fold seq - 1))) s

/-! ## The payload of LOAD -/

/-- The end of a LOAD whose `n` payload bytes have all been taken (40_cursor_primitive.md R70): they are discarded and the
failure is Illegal when `n > CAP` (30_encoding.md R59), else they are the new cursor's data. -/
def completeLoad (n : Nat) (bytes : List Byte) (s : State) : Host.Outcome State Fault Refusal :=
  if exceedsCapacity s.cfg n then raise .illegal s else respond (.ok .empty) (s.construct n bytes)

/-- Taking payload (30_encoding.md R58): the unit takes what the channel holds, up to the bytes it still needs. With all of
them the LOAD completes; else it stays in progress and no other command is accepted (log 3). -/
def takePayload (p : LoadProgress) (s : State) : Host.Outcome State Fault Refusal :=
  let need := p.count - p.taken.length
  let taken := p.taken ++ s.dataIn.take need
  let s := s.takeData need
  if taken.length < p.count then .next (s.setProgress (some ⟨p.count, taken⟩))
  else completeLoad p.count taken (s.setProgress none)

/-! ## The command port -/

/-- What the unit does next (30_encoding.md R63; 60_exceptions.md R145; 70_reset_and_hazards.md R150, R151). -/
inductive Fetched where
  /-- perform the reset the host has asserted; the state is the one without what a command that it cuts has taken -/
  | reset (s : State)
  /-- go on taking payload for the LOAD in progress -/
  | resume (p : LoadProgress)
  /-- nothing is presented: the unit is idle -/
  | idle
  /-- a command word has been taken; the state is the one without it -/
  | word (c : Word) (s : State)

/-- Reset wins over everything, and a command it cuts is taken and abandoned; a LOAD in progress keeps any other word
waiting; else the next word is taken. -/
def fetch (s : State) : Fetched :=
  match s.resetIn with
  | .atOnce => .reset s
  | .during k => .reset (s.takeCut k)
  | .released =>
    match s.inProgress with
    | some p => .resume p
    | none =>
      match s.cmdIn with
      | [] => .idle
      | c :: rest => .word c (s.setCommands rest)

/-- A word that names no command executes as the failure Illegal, with no state change (30_encoding.md R55, R56;
60_exceptions.md R133). -/
def executeIllegalWord (s : State) : Host.Outcome State Fault Refusal := raise .illegal s

/-- Between commands the unit "is idle and holds its state" (60_exceptions.md R145). -/
def holdIdle (s : State) : Host.Outcome State Fault Refusal := .next s

/-- A step that performs the reset event; a command it cuts gets no response (70_reset_and_hazards.md R150, R151). -/
def performReset (s : State) : Host.Outcome State Fault Refusal := .next s.resetEvent

/-- The state with the word `c` presented first at the command port, its payload bytes, all zero, first on the data-in
channel, and nothing before it: no reset asserted and no command in progress (log 2). -/
def State.present (s : State) (c : Word) : State :=
  { s with
    resetIn := .released
    inProgress := none
    cmdIn := c :: s.cmdIn
    dataIn := List.replicate (wordPayload c) 0 ++ s.dataIn }

end Sys2Proof.Machine
end

