-- ==== Sys2Proof/Machine/BitReaders.lean ====
section
/-! DEFINITION. Reading one bit and asking how many remain (40_cursor_primitive.md R74, R78). -/

namespace Sys2Proof.Machine

/-- READ_BIT (40_cursor_primitive.md R74). -/
def execReadBit (s : State) : Host.Outcome State Fault Refusal :=
  ((nextBit s).andThen fun b s => .got (.bit b) s).finish

/-- REMAINING_BITS (40_cursor_primitive.md R78, R79): a query, nothing but the response changes. -/
def execRemainingBits (s : State) : Host.Outcome State Fault Refusal :=
  respond (.ok (.count (countResult (remainingBits s)))) s

end Sys2Proof.Machine
end

