-- ==== Sys2Proof/Machine/Construction.lean ====
section
/-! DEFINITION. Construction of a cursor: LOAD (40_cursor_primitive.md R70, R71). -/

namespace Sys2Proof.Machine

/-- LOAD n (40_cursor_primitive.md R70; 30_encoding.md R58, R59): the payload is taken from the data-in channel, byte 0
first; nothing about the data is checked (R71). -/
def execLoad (n : Nat) (s : State) : Host.Outcome State Fault Refusal := takePayload ⟨n, []⟩ s

end Sys2Proof.Machine
end

