-- ==== Sys2Proof/Machine/ExpGolomb.lean ====
section
/-! DEFINITION. The Exp-Golomb decoder (42_exp_golomb.md R110 to R117). -/

namespace Sys2Proof.Machine

/-- READ_EXP_GOLOMB s (42_exp_golomb.md R110): the working sequence is read first, and the width check stands where the
fold stands (R113), so its bits stay consumed and EndOfStream has priority (60_exceptions.md R135). -/
def execReadExpGolomb (signed : Bool) (s : State) : Host.Outcome State Fault Refusal :=
  ((takeWorkingSequence s).andThen fun seq s => decodeExpGolomb signed seq s).finish

end Sys2Proof.Machine
end

