-- ==== Sys2Proof/Machine/MultiBitReaders.lean ====
section
/-! DEFINITION. The multi-bit and byte readers (41_multibit_readers.md R90 to R99). -/

namespace Sys2Proof.Machine

/-- READ_BITS n (41_multibit_readers.md R90, R91, R92). -/
def execReadBits (n : Nat) (s : State) : Host.Outcome State Fault Refusal :=
  ((takeBits n s).andThen fun bs s => .got (.bits bs) s).finish

/-- READ_UINT n (41_multibit_readers.md R94, R96): the width check stands first, before any bit is consumed. -/
def execReadUint (n : Nat) (s : State) : Host.Outcome State Fault Refusal :=
  if exceedsWidth s.cfg.W n then raise .widthOverflow s
  else ((takeBits n s).andThen fun bs s => .got (.result (unsignedResult s.cfg.W (fold bs))) s).finish

/-- READ_BYTE (41_multibit_readers.md R97): legal at every POS. -/
def execReadByte (s : State) : Host.Outcome State Fault Refusal :=
  ((takeByte s).andThen fun b s => .got (.byte b) s).finish

/-- READ_BYTES n (41_multibit_readers.md R98, R99). -/
def execReadBytes (n : Nat) (s : State) : Host.Outcome State Fault Refusal :=
  ((takeBytes n s).andThen fun bs s => .got (.bytes bs) s).finish

end Sys2Proof.Machine
end

