-- ==== Sys2Proof/Machine/Dispatch.lean ====
section
/-! DEFINITION. The meaning of each command, one arm per constructor of Instr (30_encoding.md R53). -/

namespace Sys2Proof.Machine

def exec (i : Instr) (s : State) : Host.Outcome State Fault Refusal :=
  match i with
  | .load n => Sys2Proof.Machine.execLoad n s
  | .readBit => Sys2Proof.Machine.execReadBit s
  | .readBits n => Sys2Proof.Machine.execReadBits n s
  | .readUint n => Sys2Proof.Machine.execReadUint n s
  | .readByte => Sys2Proof.Machine.execReadByte s
  | .readBytes n => Sys2Proof.Machine.execReadBytes n s
  | .readExpGolomb signed => Sys2Proof.Machine.execReadExpGolomb signed s
  | .remainingBits => Sys2Proof.Machine.execRemainingBits s

end Sys2Proof.Machine
end

