-- ==== Sys2Proof/Machine/Step.lean ====
section
/-! DEFINITION. One step of the machine (30_encoding.md R63): the unit performs an asserted reset, or goes on with the LOAD
that waits for payload, or takes the next command word and executes it to its response, or is idle. -/

namespace Sys2Proof.Machine

/-- One step. -/
def step (s : State) : Host.Outcome State Fault Refusal :=
  match fetch s with
  | .reset t => performReset t
  | .resume p => takePayload p s
  | .idle => holdIdle s
  | .word c t =>
    match decode c with
    | .ok i => exec i t
    | .error _ => executeIllegalWord t

/-- The state with an instruction word placed where `step` takes its next command: presented at the command port, with the
payload bytes a LOAD takes (all zero) on the data-in channel (log 2). -/
def State.withFetchWord (s : State) (nbits w : Nat) : State := s.present (BitVec.ofNat 32 (w % 2 ^ nbits))

end Sys2Proof.Machine
end

