-- ==== Sys2Proof/Machine/Views.lean ====
section
/-! DEFINITION. The derived views that the spec's closed forms speak of, computed and stored nowhere: the stream bit BIT(i)
(20_memory.md R32), the value of a bit group (R34), the Exp-Golomb prefix length (42_exp_golomb.md R121), the number of
bits a command takes (70_reset_and_hazards.md R158), the payload form of each command (30_encoding.md R60), and the
drop-on-advance representation of the cursor (10_state.md R16). The step uses none of them. -/

namespace Sys2Proof.Machine

/-- The state with the read position at `p` and nothing else changed. -/
def State.withPOS (s : State) (p : Nat) : State := { s with POS := p }

/-- `BIT(i)`, bit `7 - (i mod 8)` of byte `BUF[i div 8]` (20_memory.md R32); meant for `i < 8 * LEN` only, where every byte
is loaded. -/
def State.BIT (s : State) (i : Nat) : Bit := bitOfByte ((s.BUF.read (i / 8)).getD 0) (i % 8)

/-- The stream bits `[BIT(p), .., BIT(p+n-1)]` (41_multibit_readers.md R93). -/
def State.group (s : State) (p n : Nat) : List Bit := (List.range n).map fun i => s.BIT (p + i)

/-- `sum over i in 0..n-1 of BIT(p+i) * 2^(n-1-i)` (20_memory.md R34). -/
def State.groupValue (s : State) (p n : Nat) : Nat :=
  ∑ i ∈ Finset.range n, (s.BIT (p + i)).toNat * 2 ^ (n - 1 - i)

/-- The first 1 among the unread bits stands after `z` zeros: `z` is the least `j` in `0 .. r-1` with
`BIT(POS + j) = 1` (42_exp_golomb.md R121). -/
def State.FirstOneAfter (s : State) (z : Nat) : Prop :=
  z < remainingBits s ∧ s.BIT (s.POS + z) = 1 ∧ ∀ j, j < z → s.BIT (s.POS + j) = 0

/-- No `j` in `0 .. r-1` has `BIT(POS + j) = 1` (42_exp_golomb.md R121). -/
def State.NoOneRemains (s : State) : Prop := ∀ j, j < remainingBits s → s.BIT (s.POS + j) = 0

/-- The command needs more bits than remain, the cause of EndOfStream command by command (60_exceptions.md R131). LOAD and
REMAINING_BITS need none; READ_UINT with `n > W` asks for none (R132). -/
def NeedsMoreThanRemains (i : Instr) (s : State) : Prop :=
  match i with
  | .load _ => False
  | .readBit => remainingBits s = 0
  | .readBits n => remainingBits s < n
  | .readUint n => exceedsWidth s.cfg.W n = false ∧ remainingBits s < n
  | .readByte => remainingBits s < 8
  | .readBytes n => remainingBits s < 8 * n
  | .readExpGolomb _ => s.NoOneRemains ∨ ∃ z, s.FirstOneAfter z ∧ remainingBits s < 2 * z + 1
  | .remainingBits => False

/-- `m` is the number of successful NextBit executions of the command (70_reset_and_hazards.md R158, the table; for
READ_EXP_GOLOMB `k = z + 1`). -/
def TakesBits (i : Instr) (s : State) (m : Nat) : Prop :=
  match i with
  | .load _ => m = 0
  | .readBit => m = min 1 (remainingBits s)
  | .readBits n => m = min n (remainingBits s)
  | .readUint n => m = if exceedsWidth s.cfg.W n then 0 else min n (remainingBits s)
  | .readByte => m = min 8 (remainingBits s)
  | .readBytes n => m = min (8 * n) (remainingBits s)
  | .readExpGolomb _ =>
    (∃ z, s.FirstOneAfter z ∧ m = min (2 * (z + 1) - 1) (remainingBits s)) ∨
      (s.NoOneRemains ∧ m = remainingBits s)
  | .remainingBits => m = 0

/-- The payload is of the command's form: kind, element width and number of elements (30_encoding.md R60, the table). -/
def PayloadForm (i : Instr) (W : Width) (p : Payload) : Prop :=
  match i with
  | .load _ => p = .empty
  | .readBit => ∃ b, p = .bit b
  | .readBits n => ∃ bs, p = .bits bs ∧ bs.length = n
  | .readUint n => ∃ r, p = .result r ∧ r.onPort W = true ∧ 0 ≤ r.unsignedValue ∧ r.unsignedValue < 2 ^ n
  | .readByte => ∃ b, p = .byte b
  | .readBytes n => ∃ bs, p = .bytes bs ∧ bs.length = n
  | .readExpGolomb _ => ∃ r, p = .result r ∧ r.onPort W = true
  | .remainingBits => ∃ c, p = .count c

/-- `OFF = POS mod 8` (10_state.md R16). -/
def State.OFF (s : State) : Nat := s.POS % 8

/-- `DROPPED = POS div 8` (10_state.md R16). -/
def State.DROPPED (s : State) : Nat := s.POS / 8

/-- `REM = [BUF[DROPPED], .., BUF[LEN-1]]` (10_state.md R16). -/
def State.REM (s : State) : List Byte :=
  (List.range (s.LEN - s.DROPPED)).map fun i => (s.BUF.read (s.DROPPED + i)).getD 0

/-- The drop-on-advance representation of a cursor (10_state.md R10, R16): the remaining unread bytes and the bit offset
within the first of them. -/
structure DropCursor where
  REM : List Byte
  OFF : Nat
deriving DecidableEq, Repr

/-- The view of a state as a drop-on-advance cursor (10_state.md R16). -/
def State.dropView (s : State) : DropCursor := ⟨s.REM, s.OFF⟩

/-- The document's bit primitive on that representation (40_cursor_primitive.md R72, the quoted text): it fails when no
bytes remain; else it returns the next bit, most significant first, and "if the byte is fully consumed, it is discarded
from the remaining sequence and offset resets to 0". -/
def DropCursor.nextBit (d : DropCursor) : Option (Bit × DropCursor) :=
  match d.REM with
  | [] => none
  | B :: rest => some (bitOfByte B d.OFF, if d.OFF + 1 = 8 then ⟨rest, 0⟩ else ⟨B :: rest, d.OFF + 1⟩)

/-- "remaining_bits = 8 × remaining_byte_count − current_offset" (10_state.md R17). -/
def DropCursor.remainingBits (d : DropCursor) : Nat := 8 * d.REM.length - d.OFF

end Sys2Proof.Machine
end

