-- ==== Sys2Proof/Machine/Runs.lean ====
section
/-! DEFINITION. Words for what commands do, in which the claims are written: the state a read command leaves, a sequence
of commands, and which words are reserved. The step uses none of them. -/

namespace Sys2Proof.Machine

/-- `s` after a command that answered `r` and left the read position at `p`: nothing else differs. -/
def State.answered (s : State) (p : Nat) (r : Response) : State := (s.withPOS p).deliver r

/-- Several commands, one after the other, each to its response (30_encoding.md R63). -/
def execAll : List Instr → State → Host.Outcome State Fault Refusal
  | [], s => .next s
  | i :: is, s =>
    match exec i s with
    | .next t => execAll is t
    | .fault r => .fault r
    | .refused r => .refused r

/-- OP is reserved (30_encoding.md R55). -/
abbrev ReservedOpcode (c : Word) : Prop := (opField c).toNat = 0x0 ∨ 0x9 ≤ (opField c).toNat

/-- OP is assigned and operand bits that must be zero are not (30_encoding.md R56): READ_BIT, READ_BYTE or REMAINING_BITS
with ARG not 0, READ_EXP_GOLOMB with ARG[27:1] not 0. -/
abbrev ReservedArgument (c : Word) : Prop :=
  (((opField c).toNat = 0x2 ∨ (opField c).toNat = 0x5 ∨ (opField c).toNat = 0x8) ∧ (argField c).toNat ≠ 0) ∨
    ((opField c).toNat = 0x7 ∧ (argField c).toNat / 2 ≠ 0)

/-- A step that takes the word `c` answers ILLEGAL, and of the unit's state nothing changes (30_encoding.md R55;
60_exceptions.md R133). -/
def ExecutesAsIllegal (c : Word) : Prop :=
  ∀ (s : State) (rest : List Word), s.resetIn = .released → s.inProgress = none → s.cmdIn = c :: rest →
    step s = .next ((s.setCommands rest).deliver (.failed .illegal))

/-- The commands other than LOAD: the six reads and the query. -/
def isCursorCommand : Instr → Bool
  | .load _ => false
  | .readBit => true
  | .readBits _ => true
  | .readUint _ => true
  | .readByte => true
  | .readBytes _ => true
  | .readExpGolomb _ => true
  | .remainingBits => true

end Sys2Proof.Machine
end

