-- ==== Sys2Proof/Machine/Invariant.lean ====
section
/-! DEFINITION. The invariant of the machine (10_state.md R22, with the canonical form of memory, the legality of the build
parameters and the shape of a command in progress). It rules out the states no run reaches. -/

namespace Sys2Proof.Machine

/-- Every byte at an index below LEN has been loaded (10_state.md R11, R22 d). -/
abbrev State.bufferLoaded (s : State) : Prop := ∀ a, a < s.LEN → (s.BUF.read a).isSome = true

/-- The buffer has room for CAP bytes and no more (10_state.md R11). -/
abbrev State.bufferInCapacity (s : State) : Prop := ∀ c ∈ s.BUF, c.1 < s.cfg.CAP

/-- A LOAD in progress has a 28-bit count and still needs payload (30_encoding.md R54, R58). -/
abbrev State.progressOpen (s : State) : Prop :=
  ∀ p ∈ s.inProgress, p.count < 2 ^ 28 ∧ p.taken.length < p.count

/-- The invariant: legal parameters (00_scope.md R4, R5), memory in canonical form, loaded below LEN and within CAP,
`LEN <= CAP`, `POS <= 8 * LEN` (10_state.md R22 a, b), and a command in progress that is one the port can carry. -/
abbrev State.Inv (s : State) : Prop :=
  s.cfg.legal = true ∧ s.BUF.wf ∧ s.bufferLoaded ∧ s.bufferInCapacity ∧ s.LEN ≤ s.cfg.CAP ∧ s.POS ≤ 8 * s.LEN ∧
    s.progressOpen

end Sys2Proof.Machine
end

