-- ==== Sys2Proof/Safety.lean ====
section
/-! DEFINITION. What a safe run is: the machine never stops. Every command, legal or not, ends with a response, and "no
failure stops the unit" (93_implementation_defined.md, end of section 1; 60_exceptions.md R139; 70_reset_and_hazards.md
R158). -/

namespace Sys2Proof

/-- `k` steps from `s` end in a next state that meets the invariant: no fault, no refusal. -/
def RunsSafely (k : Nat) (s : Machine.State) : Prop :=
  ∃ t : Machine.State, Host.Core.run core k s = .next t ∧ t.Inv

/-- No run from `s`, however long, stops. -/
def NeverStops (s : Machine.State) : Prop := ∀ k, RunsSafely k s

end Sys2Proof
end

