-- ==== Sys2Proof/Certificates/Slice0/Obligations.lean ====
section
/-! DEFINITION. The statements about the machine, each from the numbered rules of spec/. Every statement that speaks of
every state holds for every W and every CAP, since State carries them (log 1). -/

open Sys2Proof Sys2Proof.Machine

/-! ## Reset and the invariant -/

/-- 10_state.md R24: the state right after reset, of every build, and that constructing a cursor over the empty byte
sequence there changes nothing. BUF is not spoken of: its bytes are unspecified. -/
def Obligations.ResetStateIsTheEmptyCursor : Prop :=
  ∀ c : Config, (State.resetWith c).LEN = 0 ∧ (State.resetWith c).POS = 0 ∧ exhausted (State.resetWith c) = true ∧
    remainingBits (State.resetWith c) = 0 ∧ (State.resetWith c).inProgress = none ∧
    (State.resetWith c).responses = [] ∧
    exec (.load 0) (State.resetWith c) = .next ((State.resetWith c).deliver (.ok .empty))

/-- 70_reset_and_hazards.md R150: a reset, whatever the unit was doing and wherever in a command it arrives, leaves the
empty cursor and delivers nothing; from there the query answers 0, every read that needs a bit answers END_OF_STREAM and
every read that needs none succeeds. What the host has presented is not spoken of (log 4). -/
def Obligations.ResetEventGivesTheEmptyCursor : Prop :=
  ∀ s : State, s.resetIn ≠ .released → ∃ t, step s = .next t ∧
    t.LEN = 0 ∧ t.POS = 0 ∧ t.inProgress = none ∧ t.responses = s.responses ∧ t.cfg = s.cfg ∧
    exec .remainingBits t = .next (t.deliver (.ok (.count 0))) ∧
    exec .readBit t = .next (t.deliver (.failed .endOfStream)) ∧
    exec .readByte t = .next (t.deliver (.failed .endOfStream)) ∧
    (∀ signed, exec (.readExpGolomb signed) t = .next (t.deliver (.failed .endOfStream))) ∧
    (∀ n, 0 < n → exec (.readBits n) t = .next (t.deliver (.failed .endOfStream)) ∧
      exec (.readBytes n) t = .next (t.deliver (.failed .endOfStream)) ∧
      (exceedsWidth t.cfg.W n = false → exec (.readUint n) t = .next (t.deliver (.failed .endOfStream)))) ∧
    exec (.readBits 0) t = .next (t.deliver (.ok (.bits []))) ∧
    exec (.readBytes 0) t = .next (t.deliver (.ok (.bytes []))) ∧
    exec (.readUint 0) t = .next (t.deliver (.ok (.result (unsignedResult t.cfg.W 0))))

/-- A reset that arrives while a command is executing, however far it has got, abandons it: no response is delivered, for
any command, a reserved word and a LOAD that waits among them, and the state is that of R150 (70_reset_and_hazards.md R151).
Two things are the model's choice (log 4): that the word of the command it cuts is not given back to the port, and that the
words after it stay presented. -/
def Obligations.ResetDuringACommandAbandonsIt : Prop :=
  ∀ (s : State) (k : Nat), s.resetIn = .during k →
    (∀ (c : Word) (rest : List Word), s.inProgress = none → s.cmdIn = c :: rest →
      ∃ t, step s = .next t ∧ t.cmdIn = rest ∧ t.responses = s.responses ∧ t.LEN = 0 ∧ t.POS = 0 ∧
        t.inProgress = none) ∧
    (∀ p : LoadProgress, s.inProgress = some p →
      ∃ t, step s = .next t ∧ t.cmdIn = s.cmdIn ∧ t.responses = s.responses ∧ t.LEN = 0 ∧ t.POS = 0 ∧
        t.inProgress = none)

/-- A reset is performed once, by the step after it is asserted, and no step asserts one: after any step, in every state,
the line is released. The line is the model's form of the reset input (log 4). -/
def Obligations.EveryStepLeavesTheResetLineReleased : Prop :=
  (∀ s : State, s.resetIn ≠ .released → ∃ t, step s = .next t ∧ t.resetIn = .released) ∧
  (∀ s t : State, step s = .next t → t.resetIn = .released)

/-- 10_state.md R22: the invariant holds after reset, for every legal build. -/
def Obligations.InvariantHoldsAfterReset : Prop :=
  (∀ c : Config, c.legal = true → (State.resetWith c).Inv) ∧ State.reset.Inv

/-- 10_state.md R22: every step keeps the invariant, reset, idling and the taking of payload among them. -/
def Obligations.StepKeepsTheInvariant : Prop :=
  ∀ s t : State, s.Inv → step s = .next t → t.Inv

/-- The unit never stops: from a state that meets the invariant no run, however long and whatever is presented, meets a
fault or a refusal. -/
def Obligations.NoRunEverStops : Prop := ∀ s : State, s.Inv → NeverStops s

/-- 10_state.md R12, R13 and 00_scope.md R6: LEN fits its 28-bit register, POS its 32-bit one, and the remaining-bit count
its 32-bit payload. -/
def Obligations.RegistersFitTheirWidths : Prop :=
  ∀ s : State, s.Inv → s.LEN < 2 ^ 28 ∧ s.POS < 2 ^ 32 ∧ remainingBits s < 2 ^ 32

/-! ## The command port -/

/-- A step that takes a word which decodes is the meaning of that command, on the state with the word taken from the
port: nothing else is added around it. -/
def Obligations.StepRunsTheDecodedCommand : Prop :=
  ∀ (s : State) (c : Word) (rest : List Word) (i : Instr), s.resetIn = .released → s.inProgress = none →
    s.cmdIn = c :: rest → decode c = .ok i → step s = exec i (s.setCommands rest)

/-- 60_exceptions.md R145: with no command presented the unit is idle and holds its state. -/
def Obligations.IdleUnitHoldsItsState : Prop :=
  ∀ s : State, s.resetIn = .released → s.inProgress = none → s.cmdIn = [] → step s = .next s

/-- 30_encoding.md R63, R58: while a LOAD waits for payload, no word is taken from the port and no other command runs: the
cursor is as before until the LOAD completes. Rests on log 3. -/
def Obligations.WordsWaitWhileALoadIsInProgress : Prop :=
  ∀ (s : State) (p : LoadProgress), s.resetIn = .released → s.inProgress = some p →
    ∃ t, step s = .next t ∧ t.cmdIn = s.cmdIn ∧ t.cfg = s.cfg ∧ t.resetIn = .released ∧
      (t.inProgress ≠ none → t.BUF = s.BUF ∧ t.LEN = s.LEN ∧ t.POS = s.POS ∧ t.responses = s.responses) ∧
      (t.inProgress = none → ∃ r, t.responses = s.responses ++ [r])

/-! ## Encoding -/

/-- 95_test_vectors.md, section 4: words written out from the encoding table of 30_encoding.md R53. -/
def Obligations.WordsOfTheTableDecode : Prop :=
  decode 0x10000003 = .ok (.load 3) ∧ decode 0x20000000 = .ok .readBit ∧ decode 0x30000018 = .ok (.readBits 24) ∧
  decode 0x40000041 = .ok (.readUint 65) ∧ decode 0x50000000 = .ok .readByte ∧
  decode 0x6FFFFFFF = .ok (.readBytes 268435455) ∧ decode 0x70000000 = .ok (.readExpGolomb false) ∧
  decode 0x70000001 = .ok (.readExpGolomb true) ∧ decode 0x80000000 = .ok .remainingBits

/-- Decoding an encoded well-formed instruction gives it back, for all eight commands and every operand. -/
def Obligations.DecodingAnEncodedCommandGivesItBack : Prop :=
  ∀ i : Instr, i.wf = true → decode (encode i) = .ok i

/-- A word that decodes is the encoding of what it decodes to, so no two words name one command. -/
def Obligations.EncodingADecodedWordGivesItBack : Prop :=
  ∀ (c : Word) (i : Instr), decode c = .ok i → i.wf = true ∧ encode i = c

/-- 30_encoding.md R55, R56: the reserved words execute as Illegal; R57 (with R53): every other word decodes to a command.
That a LOAD of more than CAP bytes, which decodes, executes as Illegal too (R59) is LoadBuildsACursorOrIsIllegal. -/
def Obligations.ReservedWordsExecuteAsIllegal : Prop :=
  (∀ c : Word, ReservedOpcode c ∨ ReservedArgument c → ExecutesAsIllegal c) ∧
  (∀ c : Word, (∃ i, decode c = .ok i) ↔ ¬ (ReservedOpcode c ∨ ReservedArgument c))

/-- The decoder and the rows of spec/opcode_table.json agree: a word is a command exactly if some row accepts it, and then
exactly one row does, the one of its command. -/
def Obligations.DecoderAgreesWithTheOpcodeTable : Prop :=
  (∀ c : Word, (∃ i, decode c = .ok i) ↔ ∃ r ∈ opcodeTable, r.accepts c = true) ∧
  (∀ (c : Word) (i : Instr), decode c = .ok i → ∀ r ∈ opcodeTable, r.accepts c = true ↔ r.mnemonic = i.mnemonic)

/-- 60_exceptions.md R133: Illegal is answered exactly for a reserved word and for a LOAD of more than CAP bytes (whose
payload is there), and leaves BUF, LEN and POS as they are. -/
def Obligations.IllegalExactlyForReservedWordsAndOversizeLoads : Prop :=
  ∀ (s : State) (c : Word) (rest : List Word), s.Inv → s.resetIn = .released → s.inProgress = none → s.cmdIn = c :: rest →
    (∀ n, decode c = .ok (.load n) → n ≤ s.dataIn.length) →
    ∃ t, step s = .next t ∧
      (t.responses = s.responses ++ [.failed .illegal] ↔
        (ReservedOpcode c ∨ ReservedArgument c) ∨ ∃ n, decode c = .ok (.load n) ∧ s.cfg.CAP < n) ∧
      (t.responses = s.responses ++ [.failed .illegal] → t.BUF = s.BUF ∧ t.LEN = s.LEN ∧ t.POS = s.POS)

/-- 30_encoding.md R61: the status codes. -/
def Obligations.StatusCodesAreTheSpecs : Prop :=
  (∀ p, (Response.ok p).status.code = 0) ∧ (Response.failed .endOfStream).status.code = 1 ∧
  (Response.failed .widthOverflow).status.code = 2 ∧ (Response.failed .illegal).status.code = 3

/-! ## LOAD -/

/-- 40_cursor_primitive.md R70, 30_encoding.md R59: LOAD n with its payload there. `n > CAP`: the payload is discarded and
the response is ILLEGAL. Else byte `a` of the buffer is payload byte `a` for `a < n`, LEN is n, POS is 0, and the response
is OK with no payload. -/
def Obligations.LoadBuildsACursorOrIsIllegal : Prop :=
  (∀ n, n < 2 ^ 28 → encode (.load n) = BitVec.ofNat 32 (0x10000000 + n) ∧ decode (encode (.load n)) = .ok (.load n)) ∧
  ∀ (s : State) (n : Nat), n ≤ s.dataIn.length →
    (s.cfg.CAP < n →
      exec (.load n) s =
        .next (({ s with dataIn := s.dataIn.drop n, inProgress := none } : State).deliver (.failed .illegal))) ∧
    (n ≤ s.cfg.CAP → ∃ m : Memory,
      exec (.load n) s =
        .next (({ s with BUF := m, LEN := n, POS := 0, dataIn := s.dataIn.drop n, inProgress := none } : State).deliver
          (.ok .empty)) ∧
      ∀ a, a < n → m.read a = s.dataIn[a]?)

/-- 30_encoding.md R58: a LOAD whose payload is not there yet takes what is there, answers nothing and stays in progress;
when the rest arrives it ends as if all of it had been there at once. Rests on log 3. -/
def Obligations.LoadPayloadMayArriveInPieces : Prop :=
  ∀ (s : State) (n : Nat) (more : List Byte), s.resetIn = .released → s.dataIn.length < n →
    ∃ t, exec (.load n) s = .next t ∧
      t = { s with inProgress := some ⟨n, s.dataIn⟩, dataIn := [] } ∧
      step { t with dataIn := more } = exec (.load n) { s with dataIn := s.dataIn ++ more }

/-- The frame of LOAD, in every state: whatever it answers, the parameters, the words waiting and the reset line are as
before, every buffer byte outside its n payload bytes (stored from address 0 on) reads as before, and unless it completes
with OK the whole cursor is as before. Two things are the model's choice: that a byte at or above n reads as before, which
the spec leaves unspecified (log 5), and that a LOAD that still waits has stored nothing, its bytes being stored when it
completes (log 3). -/
def Obligations.LoadChangesOnlyTheCursor : Prop :=
  ∀ (s t : State) (n : Nat), exec (.load n) s = .next t →
    t.cfg = s.cfg ∧ t.cmdIn = s.cmdIn ∧ t.resetIn = s.resetIn ∧ (∀ a, n ≤ a → t.BUF.read a = s.BUF.read a) ∧
      (t.responses = s.responses ++ [.ok .empty] ∨
        (t.BUF = s.BUF ∧ t.LEN = s.LEN ∧ t.POS = s.POS ∧
          (t.responses = s.responses ∨ t.responses = s.responses ++ [.failed .illegal])))

/-- 20_memory.md R40 (a), R33, R34: what was loaded is what is read: READ_BYTES n right after LOAD n returns the payload,
in order, whatever was loaded before. -/
def Obligations.BytesReadAfterALoadAreItsPayload : Prop :=
  ∀ (s : State) (n : Nat), n ≤ s.dataIn.length → n ≤ s.cfg.CAP →
    ∃ t, exec (.load n) s = .next t ∧
      exec (.readBytes n) t = .next (t.answered (8 * n) (.ok (.bytes (s.dataIn.take n))))

/-! ## Reading bits -/

/-- 40_cursor_primitive.md R72, R73: the bit primitive. At `POS = 8 * LEN` it fails and changes nothing; else it returns
bit `7 - (POS mod 8)` of byte `BUF[POS div 8]` and adds 1 to POS. -/
def Obligations.NextBitReadsOrFails : Prop :=
  ∀ s : State, s.Inv →
    (s.POS = 8 * s.LEN → nextBit s = .failed .endOfStream s) ∧
    (s.POS ≠ 8 * s.LEN → ∃ B, s.BUF.read (s.POS / 8) = some B ∧
      nextBit s = .got (B.extractLsb' (7 - s.POS % 8) 1) { s with POS := s.POS + 1 })

/-- 40_cursor_primitive.md R74: READ_BIT. -/
def Obligations.ReadBitReturnsTheNextBit : Prop :=
  encode .readBit = 0x20000000 ∧ decode 0x20000000 = .ok .readBit ∧
  (∀ c : Word, (opField c).toNat = 0x2 → (argField c).toNat ≠ 0 → ExecutesAsIllegal c) ∧
  ∀ s : State, s.Inv →
    (s.POS < 8 * s.LEN → exec .readBit s = .next (s.answered (s.POS + 1) (.ok (.bit (s.BIT s.POS))))) ∧
    (s.POS = 8 * s.LEN → exec .readBit s = .next (s.deliver (.failed .endOfStream)))

/-- 41_multibit_readers.md R90, R91, R92: READ_BITS, with no rollback, and READ_BITS 0 in every state. -/
def Obligations.ReadBitsReturnsTheGroup : Prop :=
  (∀ n, n < 2 ^ 28 → encode (.readBits n) = BitVec.ofNat 32 (0x30000000 + n) ∧
    decode (encode (.readBits n)) = .ok (.readBits n)) ∧
  (∀ s : State, exec (.readBits 0) s = .next (s.deliver (.ok (.bits [])))) ∧
  ∀ (s : State) (n : Nat), s.Inv →
    (n ≤ remainingBits s → exec (.readBits n) s =
      .next (s.answered (s.POS + n) (.ok (.bits ((List.range n).map fun i => s.BIT (s.POS + i)))))) ∧
    (remainingBits s < n → exec (.readBits n) s = .next (s.answered (8 * s.LEN) (.failed .endOfStream)))

/-- 41_multibit_readers.md R94, R96: READ_UINT. The width check stands first, in every state, and consumes nothing; else
the value is the big-endian sum, below `2^n`. -/
def Obligations.ReadUintFoldsTheGroup : Prop :=
  (∀ n, n < 2 ^ 28 → encode (.readUint n) = BitVec.ofNat 32 (0x40000000 + n) ∧
    decode (encode (.readUint n)) = .ok (.readUint n)) ∧
  (∀ (s : State) (n : Nat), exceedsWidth s.cfg.W n = true → exec (.readUint n) s = .next (s.deliver (.failed .widthOverflow))) ∧
  (∀ (w n : Nat), exceedsWidth (.finite w) n = true ↔ w < n) ∧ (∀ n, exceedsWidth .inf n = false) ∧
  ∀ (s : State) (n : Nat), s.Inv → exceedsWidth s.cfg.W n = false →
    (n ≤ remainingBits s → ∃ v, v = ∑ i ∈ Finset.range n, (s.BIT (s.POS + i)).toNat * 2 ^ (n - 1 - i) ∧ v < 2 ^ n ∧
      exec (.readUint n) s = .next (s.answered (s.POS + n) (.ok (.result (unsignedResult s.cfg.W v)))) ∧
      (unsignedResult s.cfg.W v).unsignedValue = v) ∧
    (remainingBits s < n → exec (.readUint n) s = .next (s.answered (8 * s.LEN) (.failed .endOfStream)))

/-- 41_multibit_readers.md R97: READ_BYTE, at every POS, and at an aligned one the byte of the buffer; READ_UINT 8 has the
same effect and the same value, and is never too wide. -/
def Obligations.ReadByteFoldsEightBits : Prop :=
  encode .readByte = 0x50000000 ∧ decode 0x50000000 = .ok .readByte ∧
  (∀ c : Word, (opField c).toNat = 0x5 → (argField c).toNat ≠ 0 → ExecutesAsIllegal c) ∧
  ∀ s : State, s.Inv →
    (8 ≤ remainingBits s → ∃ b : Byte,
      b.toNat = ∑ i ∈ Finset.range 8, (s.BIT (s.POS + i)).toNat * 2 ^ (7 - i) ∧
      (∀ j, s.POS = 8 * j → s.BUF.read j = some b) ∧
      exec .readByte s = .next (s.answered (s.POS + 8) (.ok (.byte b))) ∧
      exec (.readUint 8) s = .next (s.answered (s.POS + 8) (.ok (.result (unsignedResult s.cfg.W b.toNat))))) ∧
    (remainingBits s < 8 → exec .readByte s = .next (s.answered (8 * s.LEN) (.failed .endOfStream)) ∧
      exec (.readUint 8) s = .next (s.answered (8 * s.LEN) (.failed .endOfStream)))

/-- 41_multibit_readers.md R98, R99: READ_BYTES; when it fails, whole bytes and odd bits alike stay consumed and nothing
is returned. -/
def Obligations.ReadBytesReturnsTheBytes : Prop :=
  (∀ n, n < 2 ^ 28 → encode (.readBytes n) = BitVec.ofNat 32 (0x60000000 + n) ∧
    decode (encode (.readBytes n)) = .ok (.readBytes n)) ∧
  (∀ s : State, exec (.readBytes 0) s = .next (s.deliver (.ok (.bytes [])))) ∧
  ∀ (s : State) (n : Nat), s.Inv →
    (8 * n ≤ remainingBits s → ∃ bs : List Byte, bs.length = n ∧
      (∀ (j : Nat) (h : j < bs.length),
        bs[j].toNat = ∑ i ∈ Finset.range 8, (s.BIT (s.POS + 8 * j + i)).toNat * 2 ^ (7 - i)) ∧
      exec (.readBytes n) s = .next (s.answered (s.POS + 8 * n) (.ok (.bytes bs)))) ∧
    (remainingBits s < 8 * n → exec (.readBytes n) s = .next (s.answered (8 * s.LEN) (.failed .endOfStream)))

/-- 40_cursor_primitive.md R78: REMAINING_BITS answers `8 * LEN - POS`, which fits its 32 bits, and changes no state. -/
def Obligations.RemainingBitsIsAPureQuery : Prop :=
  encode .remainingBits = 0x80000000 ∧ decode 0x80000000 = .ok .remainingBits ∧
  (∀ c : Word, (opField c).toNat = 0x8 → (argField c).toNat ≠ 0 → ExecutesAsIllegal c) ∧
  ∀ s : State, s.Inv → ∃ v : BitVec 32, v.toNat = 8 * s.LEN - s.POS ∧
    exec .remainingBits s = .next (s.deliver (.ok (.count v)))

/-- 20_memory.md R34: the value of a group, of a group read in two parts (the spec marks that sentence as its own inference),
and of aligned groups of 8 and 16 bits. -/
def Obligations.GroupsAreBigEndian : Prop :=
  (∀ (s : State) (n : Nat), s.Inv → exceedsWidth s.cfg.W n = false → n ≤ remainingBits s →
    exec (.readUint n) s =
      .next (s.answered (s.POS + n) (.ok (.result (unsignedResult s.cfg.W (s.groupValue s.POS n)))))) ∧
  (∀ (s : State) (p m n : Nat), m ≤ n →
    s.groupValue p n = s.groupValue p m * 2 ^ (n - m) + s.groupValue (p + m) (n - m)) ∧
  (∀ (s : State) (j : Nat), s.Inv → s.POS = 8 * j → j < s.LEN → ∃ B, s.BUF.read j = some B ∧
    exec .readByte s = .next (s.answered (s.POS + 8) (.ok (.byte B)))) ∧
  (∀ (s : State) (j : Nat), s.Inv → s.POS = 8 * j → j + 1 < s.LEN → exceedsWidth s.cfg.W 16 = false →
    ∃ B C, s.BUF.read j = some B ∧ s.BUF.read (j + 1) = some C ∧
    exec (.readUint 16) s =
      .next (s.answered (s.POS + 16) (.ok (.result (unsignedResult s.cfg.W (B.toNat * 256 + C.toNat))))))

/-- A byte read at an unaligned position spans two buffer bytes, and needs the second (20_memory.md R36, which the spec marks
as its own inference). -/
def Obligations.UnalignedByteSpansTwoBytes : Prop :=
  ∀ s : State, s.Inv → s.POS % 8 ≠ 0 →
    (s.POS / 8 + 1 < s.LEN → ∃ B C v : Byte, s.BUF.read (s.POS / 8) = some B ∧ s.BUF.read (s.POS / 8 + 1) = some C ∧
      v.toNat = B.toNat * 2 ^ (s.POS % 8) % 256 + C.toNat / 2 ^ (8 - s.POS % 8) ∧
      exec .readByte s = .next (s.answered (s.POS + 8) (.ok (.byte v)))) ∧
    (¬ s.POS / 8 + 1 < s.LEN → exec .readByte s = .next (s.answered (8 * s.LEN) (.failed .endOfStream)))

/-- 41_multibit_readers.md R100: READ_UINT n is READ_BITS n folded, and READ_BYTES n is READ_BITS (8 * n) folded eight bits
at a time (the spec marks that half as its own inference): they succeed together and leave the same POS. -/
def Obligations.FoldedReadsAgreeWithReadBits : Prop :=
  (∀ (s : State) (n : Nat), s.Inv → exceedsWidth s.cfg.W n = false →
    (∃ p bs, exec (.readBits n) s = .next (s.answered p (.ok (.bits bs))) ∧
      exec (.readUint n) s = .next (s.answered p (.ok (.result (unsignedResult s.cfg.W (fold bs)))))) ∨
    (∃ p, exec (.readBits n) s = .next (s.answered p (.failed .endOfStream)) ∧
      exec (.readUint n) s = .next (s.answered p (.failed .endOfStream)))) ∧
  (∀ (s : State) (n : Nat), s.Inv →
    (∃ p bs, exec (.readBits (8 * n)) s = .next (s.answered p (.ok (.bits bs))) ∧
      exec (.readBytes n) s = .next (s.answered p (.ok (.bytes
        ((List.range n).map fun j => BitVec.ofNat 8 (fold ((bs.drop (8 * j)).take 8))))))) ∨
    (∃ p, exec (.readBits (8 * n)) s = .next (s.answered p (.failed .endOfStream)) ∧
      exec (.readBytes n) s = .next (s.answered p (.failed .endOfStream))))

/-- Single-bit reads return the stream bits in order, exactly as many as remain, and every further one fails (the sequence
law, 40_cursor_primitive.md R76, which the spec marks as its own inference). -/
def Obligations.SingleBitReadsFollowTheStream : Prop :=
  ∀ s : State, s.Inv →
    (∀ k, k ≤ remainingBits s → execAll (List.replicate k .readBit) s =
      .next { s with POS := s.POS + k, responses := s.responses ++ (s.group s.POS k).map fun b => .ok (.bit b) }) ∧
    (∀ m, execAll (List.replicate (remainingBits s + m) .readBit) s =
      .next { s with POS := 8 * s.LEN, responses := s.responses ++
        ((s.group s.POS (remainingBits s)).map (fun b => .ok (.bit b)) ++ List.replicate m (.failed .endOfStream)) })

/-! ## The Exp-Golomb decoder -/

/-- 42_exp_golomb.md R110 to R115: READ_EXP_GOLOMB in its four steps. With the first 1 after `z` zeros, `k = z + 1` and the
working sequence `seq` the next `2*k - 1` bits, `code = Fold(seq) - 1` never goes below zero, and it is answered as it is
or sign mapped. No 1 left, or a code cut off, runs out of data with every bit consumed; a complete code of more than W bits
is consumed and too wide. Any argument bit but ARG[0] makes the word illegal. -/
def Obligations.ExpGolombFollowsItsFourSteps : Prop :=
  (∀ signed, encode (.readExpGolomb signed) = (if signed then 0x70000001 else 0x70000000) ∧
    decode (encode (.readExpGolomb signed)) = .ok (.readExpGolomb signed)) ∧
  (∀ c : Word, (opField c).toNat = 0x7 → (argField c).toNat / 2 ≠ 0 → ExecutesAsIllegal c) ∧
  ∀ (s : State) (signed : Bool), s.Inv →
    ((∀ j, j < remainingBits s → s.BIT (s.POS + j) = 0) →
      exec (.readExpGolomb signed) s = .next (s.answered (8 * s.LEN) (.failed .endOfStream))) ∧
    ∀ z k : Nat, z < remainingBits s → (∀ j, j < z → s.BIT (s.POS + j) = 0) → s.BIT (s.POS + z) = 1 → k = z + 1 →
      (remainingBits s < 2 * k - 1 →
        exec (.readExpGolomb signed) s = .next (s.answered (8 * s.LEN) (.failed .endOfStream))) ∧
      (2 * k - 1 ≤ remainingBits s → exceedsWidth s.cfg.W (2 * k - 1) = true →
        exec (.readExpGolomb signed) s = .next (s.answered (s.POS + (2 * k - 1)) (.failed .widthOverflow))) ∧
      (2 * k - 1 ≤ remainingBits s → exceedsWidth s.cfg.W (2 * k - 1) = false →
        ∃ (seq : List Bit) (code : Nat), seq = (List.range (2 * k - 1)).map (fun i => s.BIT (s.POS + i)) ∧
          (code : Int) = (fold seq : Int) - 1 ∧
          (signed = false → exec (.readExpGolomb signed) s =
            .next (s.answered (s.POS + (2 * k - 1)) (.ok (.result (unsignedResult s.cfg.W code))))) ∧
          (signed = true → ∃ v : Int, (code % 2 = 0 → v = -((code / 2 : Nat) : Int)) ∧
            (code % 2 = 1 → v = (((code + 1) / 2 : Nat) : Int)) ∧ exec (.readExpGolomb signed) s =
            .next (s.answered (s.POS + (2 * k - 1)) (.ok (.result (signedResult s.cfg.W v))))))

/-- The closed form of READ_EXP_GOLOMB, the value from the suffix bits alone (42_exp_golomb.md R121, which the spec marks as
its own inference). -/
def Obligations.ExpGolombClosedForm : Prop :=
  ∀ (s : State) (signed : Bool), s.Inv →
    (s.NoOneRemains → exec (.readExpGolomb signed) s = .next (s.answered (8 * s.LEN) (.failed .endOfStream))) ∧
    ∀ z k : Nat, s.FirstOneAfter z → k = z + 1 →
      (remainingBits s < 2 * k - 1 →
        exec (.readExpGolomb signed) s = .next (s.answered (8 * s.LEN) (.failed .endOfStream))) ∧
      (2 * k - 1 ≤ remainingBits s → exceedsWidth s.cfg.W (2 * k - 1) = true →
        exec (.readExpGolomb signed) s = .next (s.answered (s.POS + (2 * k - 1)) (.failed .widthOverflow))) ∧
      (2 * k - 1 ≤ remainingBits s → exceedsWidth s.cfg.W (2 * k - 1) = false →
        ∀ code : Nat,
          code = 2 ^ (k - 1) - 1 + ∑ i ∈ Finset.range (k - 1), (s.BIT (s.POS + k + i)).toNat * 2 ^ (k - 2 - i) →
          (signed = false → exec (.readExpGolomb signed) s =
            .next (s.answered (s.POS + (2 * k - 1)) (.ok (.result (unsignedResult s.cfg.W code))))) ∧
          (signed = true → code % 2 = 0 → exec (.readExpGolomb signed) s =
            .next (s.answered (s.POS + (2 * k - 1)) (.ok (.result (signedResult s.cfg.W (-((code / 2 : Nat) : Int))))))) ∧
          (signed = true → code % 2 = 1 → exec (.readExpGolomb signed) s =
            .next (s.answered (s.POS + (2 * k - 1)) (.ok (.result (signedResult s.cfg.W (((code + 1) / 2 : Nat) : Int)))))))

/-- 30_encoding.md R53, R54, R65 and R56: the words of READ_EXP_GOLOMB, READ_UE and READ_SE, and that any other bit of ARG
makes the word illegal. -/
def Obligations.ExpGolombWordsAreTwo : Prop :=
  encode (.readExpGolomb false) = 0x70000000 ∧ encode (.readExpGolomb true) = 0x70000001 ∧
  decode 0x70000000 = .ok (.readExpGolomb false) ∧ decode 0x70000001 = .ok (.readExpGolomb true) ∧
  ∀ c : Word, (opField c).toNat = 0x7 → c ≠ 0x70000000 → c ≠ 0x70000001 → ExecutesAsIllegal c

/-- The range of a successful decode with prefix length k, and that its port form, W bits or the integer, reads back as
exactly the value: no result is ever cut (42_exp_golomb.md R117, R118, which the spec marks as its own inferences). -/
def Obligations.ExpGolombResultsFitThePort : Prop :=
  ∀ (s : State) (z k : Nat), s.Inv → s.FirstOneAfter z → k = z + 1 → 2 * k - 1 ≤ remainingBits s →
    exceedsWidth s.cfg.W (2 * k - 1) = false →
    ∃ (code : Nat) (v : Int) (ru rs : ResultWord),
      exec (.readExpGolomb false) s = .next (s.answered (s.POS + (2 * k - 1)) (.ok (.result ru))) ∧
      exec (.readExpGolomb true) s = .next (s.answered (s.POS + (2 * k - 1)) (.ok (.result rs))) ∧
      ru.onPort s.cfg.W = true ∧ rs.onPort s.cfg.W = true ∧ ru.unsignedValue = code ∧ rs.signedValue = v ∧
      2 ^ (k - 1) - 1 ≤ code ∧ code ≤ 2 ^ k - 2 ∧
      (code % 2 = 0 → 2 * v = -(code : Int)) ∧ (code % 2 = 1 → 2 * v = (code : Int) + 1) ∧
      (k = 1 → v = 0) ∧ (2 ≤ k → -((2 : Int) ^ (k - 1) - 1) ≤ v ∧ v ≤ (2 : Int) ^ (k - 1) - 1)

/-- 42_exp_golomb.md R115: the sign mapping is exact, and a bijection from the naturals onto the integers (R116, which the
spec marks as its own inference). -/
def Obligations.SignMappingIsABijection : Prop :=
  Function.Bijective signMap ∧
  (∀ code, code % 2 = 0 → 2 * signMap code = -(code : Int)) ∧
  (∀ code, code % 2 = 1 → 2 * signMap code = (code : Int) + 1) ∧
  (∀ v : Int, 0 < v → signMap (2 * v - 1).toNat = v) ∧ (∀ v : Int, v ≤ 0 → signMap (-2 * v).toNat = v)

/-- 42_exp_golomb.md R120: READ_UE and READ_SE from one state consume the same bits, succeed or fail alike, and differ
only in the mapping. -/
def Obligations.UnsignedAndSignedDecodesDifferOnlyInTheMapping : Prop :=
  ∀ s : State, s.Inv →
    (∃ p code, exec (.readExpGolomb false) s = .next (s.answered p (.ok (.result (unsignedResult s.cfg.W code)))) ∧
      exec (.readExpGolomb true) s = .next (s.answered p (.ok (.result (signedResult s.cfg.W (signMap code)))))) ∨
    (∃ p f, exec (.readExpGolomb false) s = .next (s.answered p (.failed f)) ∧
      exec (.readExpGolomb true) s = .next (s.answered p (.failed f)))

/-- 42_exp_golomb.md R119, R122: the reference loop ends. Each decode that does not run out of data consumes at least one
bit, so after at most as many decodes as bits remain the unit is exhausted, and every later decode answers
END_OF_STREAM and changes nothing else. -/
def Obligations.DecodeLoopRunsOutOfData : Prop :=
  ∀ (s : State) (signed : Bool), s.Inv →
    (∃ t, exec (.readExpGolomb signed) s = .next t ∧
      (t.responses = s.responses ++ [.failed .endOfStream] ∨ s.POS < t.POS)) ∧
    ∀ n, remainingBits s ≤ n → ∃ t, execAll (List.replicate n (.readExpGolomb signed)) s = .next t ∧
      t.POS = 8 * t.LEN ∧ exec (.readExpGolomb signed) t = .next (t.deliver (.failed .endOfStream))

/-! ## Failures -/

/-- 60_exceptions.md R131: END_OF_STREAM is answered exactly by a command that needs more bits than remain (the list of the
conditions the spec marks as its own inference), and leaves `POS = 8 * LEN`. -/
def Obligations.EndOfStreamExactlyWhenBitsRunOut : Prop :=
  ∀ (s : State) (i : Instr), s.Inv → ∃ t, exec i s = .next t ∧
    (t.responses = s.responses ++ [.failed .endOfStream] ↔ NeedsMoreThanRemains i s) ∧
    (t.responses = s.responses ++ [.failed .endOfStream] → t.POS = 8 * t.LEN ∧ t.LEN = s.LEN ∧ remainingBits t = 0)

/-- 60_exceptions.md R132: WIDTH_OVERFLOW is answered exactly by READ_UINT n with `n > W`, state unchanged, and by a
complete Exp-Golomb code of more than W bits, those bits consumed; with W = inf never. -/
def Obligations.WidthOverflowExactlyWhenTheFoldIsTooWide : Prop :=
  ∀ (s : State) (i : Instr), s.Inv → ∃ t, exec i s = .next t ∧
    (t.responses = s.responses ++ [.failed .widthOverflow] ↔
      (∃ n, i = .readUint n ∧ exceedsWidth s.cfg.W n = true) ∨
      (∃ signed z, i = .readExpGolomb signed ∧ s.FirstOneAfter z ∧ 2 * z + 1 ≤ remainingBits s ∧
        exceedsWidth s.cfg.W (2 * z + 1) = true)) ∧
    (t.responses = s.responses ++ [.failed .widthOverflow] →
      s.cfg.W ≠ .inf ∧ (∀ n, i = .readUint n → t = s.deliver (.failed .widthOverflow)) ∧
      (∀ signed z, i = .readExpGolomb signed → s.FirstOneAfter z →
        t = s.answered (s.POS + (2 * z + 1)) (.failed .widthOverflow)))

/-- 60_exceptions.md R135: the order of detection. A reserved word is Illegal even on an exhausted unit; READ_UINT checks
the width before the data; READ_EXP_GOLOMB runs out of data before it checks the width. -/
def Obligations.FailuresAreDetectedInOrder : Prop :=
  (∀ c : Word, ReservedOpcode c ∨ ReservedArgument c → ExecutesAsIllegal c) ∧
  (∀ (s : State) (n : Nat), exceedsWidth s.cfg.W n = true →
    exec (.readUint n) s = .next (s.deliver (.failed .widthOverflow))) ∧
  (∀ (s : State) (signed : Bool) (z : Nat), s.Inv → s.FirstOneAfter z → remainingBits s < 2 * z + 1 →
    exec (.readExpGolomb signed) s = .next (s.answered (8 * s.LEN) (.failed .endOfStream)))

/-- 60_exceptions.md R139: a failure is not sticky, and an exhausted unit fails again on every command that needs a bit,
with no state change, while commands that need none still succeed, and exactly a LOAD of at least one byte ends the
condition. -/
def Obligations.ExhaustedUnitFailsAgainUntilLoaded : Prop :=
  ∀ s : State, s.Inv → s.POS = 8 * s.LEN →
    exec .readBit s = .next (s.deliver (.failed .endOfStream)) ∧
    exec .readByte s = .next (s.deliver (.failed .endOfStream)) ∧
    (∀ signed, exec (.readExpGolomb signed) s = .next (s.deliver (.failed .endOfStream))) ∧
    (∀ n, 0 < n → exec (.readBits n) s = .next (s.deliver (.failed .endOfStream)) ∧
      exec (.readBytes n) s = .next (s.deliver (.failed .endOfStream)) ∧
      (exceedsWidth s.cfg.W n = false → exec (.readUint n) s = .next (s.deliver (.failed .endOfStream)))) ∧
    exec (.readBits 0) s = .next (s.deliver (.ok (.bits []))) ∧
    exec (.readBytes 0) s = .next (s.deliver (.ok (.bytes []))) ∧
    exec (.readUint 0) s = .next (s.deliver (.ok (.result (unsignedResult s.cfg.W 0)))) ∧
    exec .remainingBits s = .next (s.deliver (.ok (.count 0))) ∧
    (∀ n, n ≤ s.cfg.CAP → n ≤ s.dataIn.length → ∃ t, exec (.load n) s = .next t ∧
      t.responses = s.responses ++ [.ok .empty] ∧ (exhausted t = true ↔ n = 0))

/-- 40_cursor_primitive.md R80, 70_reset_and_hazards.md R158: whether a command succeeds or fails, POS advances by exactly
the number of successful NextBit executions of the table of R158, REMAINING_BITS drops by the same number, and after
END_OF_STREAM it is 0. -/
def Obligations.ConsumedBitsAreNeverGivenBack : Prop :=
  ∀ (s : State) (i : Instr), s.Inv → isCursorCommand i = true → ∃ t m, exec i s = .next t ∧ TakesBits i s m ∧
    t.POS = s.POS + m ∧ t.LEN = s.LEN ∧ remainingBits s = remainingBits t + m ∧
    (t.responses = s.responses ++ [.failed .endOfStream] → remainingBits t = 0)

/-! ## Frames, responses, independence -/

/-- 20_memory.md R38, 10_state.md R21, R22: the frame of the seven commands other than LOAD, in every state: the only side
effect is the advance of POS; every byte of the buffer reads as before; and exactly one response is delivered. -/
def Obligations.ReadsOnlyAdvanceThePosition : Prop :=
  ∀ (s t : State) (i : Instr), isCursorCommand i = true → exec i s = .next t →
    t.cfg = s.cfg ∧ t.BUF = s.BUF ∧ t.LEN = s.LEN ∧ t.inProgress = s.inProgress ∧ t.cmdIn = s.cmdIn ∧
    t.dataIn = s.dataIn ∧ t.resetIn = s.resetIn ∧ s.POS ≤ t.POS ∧ (∀ a, t.BUF.read a = s.BUF.read a) ∧
    (∃ r, t.responses = s.responses ++ [r]) ∧ (i = .remainingBits → t.POS = s.POS)

/-- 30_encoding.md R60: every command produces exactly one response, with a payload exactly when the status is OK, and
then of the command's form. A LOAD is taken with its payload there (R58). -/
def Obligations.EveryCommandAnswersOnce : Prop :=
  ∀ (s : State) (i : Instr), s.Inv → (∀ n, i = .load n → n ≤ s.dataIn.length) →
    ∃ t r, exec i s = .next t ∧ t.responses = s.responses ++ [r] ∧
      (r.payload ≠ none ↔ r.status = .ok) ∧ ∀ p, r.payload = some p → PayloadForm i s.cfg.W p

/-- 42_exp_golomb.md R120, 10_state.md R20, R22 (d): what a command answers and where it leaves POS depend on W, LEN, POS
and the bytes below LEN alone: not on any byte at or above LEN, not on CAP, not on what earlier commands answered, not on
what is waiting at the port. -/
def Obligations.ResponsesDependOnTheCursorAlone : Prop :=
  ∀ (s t : State) (i : Instr), s.Inv → t.Inv → isCursorCommand i = true → t.cfg.W = s.cfg.W → t.LEN = s.LEN →
    t.POS = s.POS → (∀ a, a < s.LEN → t.BUF.read a = s.BUF.read a) →
    ∃ p r, exec i s = .next (s.answered p r) ∧ exec i t = .next (t.answered p r)

/-- 10_state.md R16, R17, 20_memory.md R31: the absolute-index cursor refines the drop-on-advance cursor: the bit
primitive fails in both or gives the same bit in both and leads to states that correspond, OFF stays below 8, and both
count the same number of remaining bits. -/
def Obligations.AbsoluteIndexRefinesDropOnAdvance : Prop :=
  ∀ s : State, s.Inv →
    s.OFF < 8 ∧ s.POS = 8 * s.DROPPED + s.OFF ∧ s.dropView.remainingBits = remainingBits s ∧
    ((nextBit s = .failed .endOfStream s ∧ s.dropView.nextBit = none) ∨
      ∃ b t, nextBit s = .got b t ∧ s.dropView.nextBit = some (b, t.dropView))

/-- 10_state.md R18: EXHAUSTED is one condition: `POS = 8 * LEN`, no bits remaining, no bytes remaining. -/
def Obligations.ExhaustedIsOneCondition : Prop :=
  ∀ s : State, s.Inv →
    (exhausted s = true ↔ s.POS = 8 * s.LEN) ∧ (exhausted s = true ↔ remainingBits s = 0) ∧
    (exhausted s = true ↔ s.REM = [])

/-- 10_state.md R21, R13, in every state: only reset and a LOAD that completes end a cursor instance; any other step leaves
BUF and LEN as they are and never takes POS back. That a step which takes payload for a LOAD that still waits is one of
those other steps, BUF untouched until the LOAD completes, is the model's choice (log 3). -/
def Obligations.OnlyLoadAndResetEndAnInstance : Prop :=
  ∀ s t : State, step s = .next t →
    (t.BUF = s.BUF ∧ t.LEN = s.LEN ∧ s.POS ≤ t.POS) ∨ s.resetIn ≠ .released ∨
      (t.responses = s.responses ++ [.ok .empty] ∧ t.POS = 0)

/-- In every state: no step changes the parameters; at most one word is taken from the port, the next one, and none is ever
put there, so payload is never decoded as a command; payload bytes are taken from the front of the channel; and at most one
response is delivered, no earlier one changed. The port's form is the model's choice: words and bytes presented stand in
lists (log 2), payload may be taken in pieces (log 3), a reset keeps what is waiting at the port and drops what a command it
cuts has taken (log 4), and responses stay on record (log 7). -/
def Obligations.StepsOnlyConsumeThePort : Prop :=
  ∀ s t : State, step s = .next t →
    t.cfg = s.cfg ∧ (t.cmdIn = s.cmdIn ∨ ∃ c, s.cmdIn = c :: t.cmdIn) ∧ (∃ k, t.dataIn = s.dataIn.drop k) ∧
    (t.responses = s.responses ∨ ∃ r, t.responses = s.responses ++ [r])
end

