-- ==== Sys2Proof/Laws/State.lean ====
section
/-! SUPPORT. One lemma per field per update of State, so that no later proof unfolds a record update. -/

namespace Sys2Proof.Machine

section advance
variable (s : State)

@[simp] theorem State.advance_cfg : (s.advance).cfg = s.cfg := rfl
@[simp] theorem State.advance_BUF : (s.advance).BUF = s.BUF := rfl
@[simp] theorem State.advance_LEN : (s.advance).LEN = s.LEN := rfl
@[simp] theorem State.advance_POS : (s.advance).POS = s.POS + 1 := rfl
@[simp] theorem State.advance_inProgress : (s.advance).inProgress = s.inProgress := rfl
@[simp] theorem State.advance_cmdIn : (s.advance).cmdIn = s.cmdIn := rfl
@[simp] theorem State.advance_dataIn : (s.advance).dataIn = s.dataIn := rfl
@[simp] theorem State.advance_resetIn : (s.advance).resetIn = s.resetIn := rfl
@[simp] theorem State.advance_responses : (s.advance).responses = s.responses := rfl

end advance

section deliver
variable (s : State) (r : Response)

@[simp] theorem State.deliver_cfg : (s.deliver r).cfg = s.cfg := rfl
@[simp] theorem State.deliver_BUF : (s.deliver r).BUF = s.BUF := rfl
@[simp] theorem State.deliver_LEN : (s.deliver r).LEN = s.LEN := rfl
@[simp] theorem State.deliver_POS : (s.deliver r).POS = s.POS := rfl
@[simp] theorem State.deliver_inProgress : (s.deliver r).inProgress = s.inProgress := rfl
@[simp] theorem State.deliver_cmdIn : (s.deliver r).cmdIn = s.cmdIn := rfl
@[simp] theorem State.deliver_dataIn : (s.deliver r).dataIn = s.dataIn := rfl
@[simp] theorem State.deliver_resetIn : (s.deliver r).resetIn = s.resetIn := rfl
@[simp] theorem State.deliver_responses : (s.deliver r).responses = s.responses ++ [r] := rfl

end deliver

section construct
variable (s : State) (n : Nat) (bytes : List Byte)

@[simp] theorem State.construct_cfg : (s.construct n bytes).cfg = s.cfg := rfl
@[simp] theorem State.construct_BUF : (s.construct n bytes).BUF = s.BUF.writeFrom 0 bytes := rfl
@[simp] theorem State.construct_LEN : (s.construct n bytes).LEN = n := rfl
@[simp] theorem State.construct_POS : (s.construct n bytes).POS = 0 := rfl
@[simp] theorem State.construct_inProgress : (s.construct n bytes).inProgress = s.inProgress := rfl
@[simp] theorem State.construct_cmdIn : (s.construct n bytes).cmdIn = s.cmdIn := rfl
@[simp] theorem State.construct_dataIn : (s.construct n bytes).dataIn = s.dataIn := rfl
@[simp] theorem State.construct_resetIn : (s.construct n bytes).resetIn = s.resetIn := rfl
@[simp] theorem State.construct_responses : (s.construct n bytes).responses = s.responses := rfl

end construct

section takeData
variable (s : State) (k : Nat)

@[simp] theorem State.takeData_cfg : (s.takeData k).cfg = s.cfg := rfl
@[simp] theorem State.takeData_BUF : (s.takeData k).BUF = s.BUF := rfl
@[simp] theorem State.takeData_LEN : (s.takeData k).LEN = s.LEN := rfl
@[simp] theorem State.takeData_POS : (s.takeData k).POS = s.POS := rfl
@[simp] theorem State.takeData_inProgress : (s.takeData k).inProgress = s.inProgress := rfl
@[simp] theorem State.takeData_cmdIn : (s.takeData k).cmdIn = s.cmdIn := rfl
@[simp] theorem State.takeData_dataIn : (s.takeData k).dataIn = s.dataIn.drop k := rfl
@[simp] theorem State.takeData_resetIn : (s.takeData k).resetIn = s.resetIn := rfl
@[simp] theorem State.takeData_responses : (s.takeData k).responses = s.responses := rfl

end takeData

section setProgress
variable (s : State) (p : Option LoadProgress)

@[simp] theorem State.setProgress_cfg : (s.setProgress p).cfg = s.cfg := rfl
@[simp] theorem State.setProgress_BUF : (s.setProgress p).BUF = s.BUF := rfl
@[simp] theorem State.setProgress_LEN : (s.setProgress p).LEN = s.LEN := rfl
@[simp] theorem State.setProgress_POS : (s.setProgress p).POS = s.POS := rfl
@[simp] theorem State.setProgress_inProgress : (s.setProgress p).inProgress = p := rfl
@[simp] theorem State.setProgress_cmdIn : (s.setProgress p).cmdIn = s.cmdIn := rfl
@[simp] theorem State.setProgress_dataIn : (s.setProgress p).dataIn = s.dataIn := rfl
@[simp] theorem State.setProgress_resetIn : (s.setProgress p).resetIn = s.resetIn := rfl
@[simp] theorem State.setProgress_responses : (s.setProgress p).responses = s.responses := rfl

end setProgress

section setCommands
variable (s : State) (ws : List Word)

@[simp] theorem State.setCommands_cfg : (s.setCommands ws).cfg = s.cfg := rfl
@[simp] theorem State.setCommands_BUF : (s.setCommands ws).BUF = s.BUF := rfl
@[simp] theorem State.setCommands_LEN : (s.setCommands ws).LEN = s.LEN := rfl
@[simp] theorem State.setCommands_POS : (s.setCommands ws).POS = s.POS := rfl
@[simp] theorem State.setCommands_inProgress : (s.setCommands ws).inProgress = s.inProgress := rfl
@[simp] theorem State.setCommands_cmdIn : (s.setCommands ws).cmdIn = ws := rfl
@[simp] theorem State.setCommands_dataIn : (s.setCommands ws).dataIn = s.dataIn := rfl
@[simp] theorem State.setCommands_resetIn : (s.setCommands ws).resetIn = s.resetIn := rfl
@[simp] theorem State.setCommands_responses : (s.setCommands ws).responses = s.responses := rfl

end setCommands

section resetEvent
variable (s : State)

@[simp] theorem State.resetEvent_cfg : (s.resetEvent).cfg = s.cfg := rfl
@[simp] theorem State.resetEvent_BUF : (s.resetEvent).BUF = s.BUF := rfl
@[simp] theorem State.resetEvent_LEN : (s.resetEvent).LEN = 0 := rfl
@[simp] theorem State.resetEvent_POS : (s.resetEvent).POS = 0 := rfl
@[simp] theorem State.resetEvent_inProgress : (s.resetEvent).inProgress = none := rfl
@[simp] theorem State.resetEvent_cmdIn : (s.resetEvent).cmdIn = s.cmdIn := rfl
@[simp] theorem State.resetEvent_dataIn : (s.resetEvent).dataIn = s.dataIn := rfl
@[simp] theorem State.resetEvent_resetIn : (s.resetEvent).resetIn = .released := rfl
@[simp] theorem State.resetEvent_responses : (s.resetEvent).responses = s.responses := rfl

end resetEvent

section takeCut
variable (s : State) (k : Nat)

@[simp] theorem State.takeCut_cfg : (s.takeCut k).cfg = s.cfg := rfl
@[simp] theorem State.takeCut_BUF : (s.takeCut k).BUF = s.BUF := rfl
@[simp] theorem State.takeCut_LEN : (s.takeCut k).LEN = s.LEN := rfl
@[simp] theorem State.takeCut_POS : (s.takeCut k).POS = s.POS := rfl
@[simp] theorem State.takeCut_inProgress : (s.takeCut k).inProgress = s.inProgress := rfl
@[simp] theorem State.takeCut_dataIn : (s.takeCut k).dataIn = s.dataIn.drop (min k s.payloadDue) := rfl
@[simp] theorem State.takeCut_resetIn : (s.takeCut k).resetIn = s.resetIn := rfl
@[simp] theorem State.takeCut_responses : (s.takeCut k).responses = s.responses := rfl

/-- A LOAD that waits was taken before; the words at the port are other commands. -/
theorem State.takeCut_cmdIn_waiting {p : LoadProgress} (h : s.inProgress = some p) : (s.takeCut k).cmdIn = s.cmdIn := by
  simp [State.takeCut, h]

/-- Else the word that is cut is the first at the port. -/
theorem State.takeCut_cmdIn_word (h : s.inProgress = none) : (s.takeCut k).cmdIn = s.cmdIn.tail := by
  simp [State.takeCut, h]

/-- Either way at most one word has left the port, the first. -/
theorem State.takeCut_cmdIn_cases : (s.takeCut k).cmdIn = s.cmdIn ∨ ∃ c, s.cmdIn = c :: (s.takeCut k).cmdIn := by
  cases hp : s.inProgress with
  | some p => exact .inl (s.takeCut_cmdIn_waiting k hp)
  | none =>
    rw [s.takeCut_cmdIn_word k hp]
    cases s.cmdIn with
    | nil => exact .inl rfl
    | cons c rest => exact .inr ⟨c, rfl⟩

end takeCut

section withPOS
variable (s : State) (p : Nat)

@[simp] theorem State.withPOS_cfg : (s.withPOS p).cfg = s.cfg := rfl
@[simp] theorem State.withPOS_BUF : (s.withPOS p).BUF = s.BUF := rfl
@[simp] theorem State.withPOS_LEN : (s.withPOS p).LEN = s.LEN := rfl
@[simp] theorem State.withPOS_POS : (s.withPOS p).POS = p := rfl
@[simp] theorem State.withPOS_inProgress : (s.withPOS p).inProgress = s.inProgress := rfl
@[simp] theorem State.withPOS_cmdIn : (s.withPOS p).cmdIn = s.cmdIn := rfl
@[simp] theorem State.withPOS_dataIn : (s.withPOS p).dataIn = s.dataIn := rfl
@[simp] theorem State.withPOS_resetIn : (s.withPOS p).resetIn = s.resetIn := rfl
@[simp] theorem State.withPOS_responses : (s.withPOS p).responses = s.responses := rfl

end withPOS

theorem State.advance_eq_withPOS (s : State) : s.advance = s.withPOS (s.POS + 1) := rfl

@[simp] theorem State.withPOS_withPOS (s : State) (p q : Nat) : (s.withPOS p).withPOS q = s.withPOS q := rfl

theorem State.withPOS_self (s : State) (p : Nat) (h : s.POS = p) : s.withPOS p = s := by subst h; rfl

end Sys2Proof.Machine
end

