-- ==== Sys2Proof/Laws/Memory.lean ====
section
/-! SUPPORT. The laws of the buffer memory: a read after a write, and that every write keeps the canonical form and the
bounds of the invariant. -/

namespace Sys2Proof.Machine

@[simp] theorem Memory.read_nil (a : Nat) : Memory.read [] a = none := rfl

theorem Memory.read_cons (c : Host.Cell) (m : Memory) (a : Nat) :
    Memory.read (c :: m) a = if c.1 = a then some c.2 else Memory.read m a := rfl

/-- A read after a write at the same address gives the value written; a write leaves every other address alone. -/
theorem Memory.read_write (m : Memory) (a b : Nat) (v : Byte) :
    (m.write a v).read b = if a = b then some v else m.read b := by
  induction m with
  | nil => simp [Memory.write, Memory.read_cons]
  | cons c m ih =>
    simp only [Memory.write]
    split
    · simp [Memory.read_cons]
    · split
      · rename_i h
        by_cases hab : a = b <;> simp_all [Memory.read_cons]
      · rename_i h₁ h₂
        by_cases hcb : c.1 = b
        · have : a ≠ b := by omega
          simp [Memory.read_cons, hcb, this]
        · simp [Memory.read_cons, hcb, ih]

/-- A read after a payload is written from `a` on: the payload's byte inside it, the old byte outside. -/
theorem Memory.read_writeFrom (bs : List Byte) (m : Memory) (a b : Nat) :
    (m.writeFrom a bs).read b =
      if h : a ≤ b ∧ b < a + bs.length then some (bs[b - a]'(by omega)) else m.read b := by
  induction bs generalizing m a with
  | nil =>
    have : ¬ (a ≤ b ∧ b < a) := by omega
    simp [Memory.writeFrom, this]
  | cons v bs ih =>
    rw [Memory.writeFrom, ih, Memory.read_write]
    by_cases hab : a = b
    · subst hab; simp
    · by_cases h : a + 1 ≤ b ∧ b < a + 1 + bs.length
      · have h' : a ≤ b ∧ b < a + (bs.length + 1) := by omega
        have e : b - a = b - (a + 1) + 1 := by omega
        simp [h, h', e]
      · have h' : ¬ (a ≤ b ∧ b < a + (bs.length + 1)) := by omega
        rw [dif_neg h, dif_neg (by simpa using h'), if_neg hab]

/-- Only the addresses already listed and the address written are listed after a write. -/
theorem Memory.mem_write {m : Memory} {a : Nat} {v : Byte} {c : Host.Cell} (h : c ∈ m.write a v) :
    c = (a, v) ∨ c ∈ m := by
  induction m with
  | nil => simpa [Memory.write] using h
  | cons d m ih =>
    simp only [Memory.write] at h
    split at h
    · simpa using h
    · split at h
      · simp only [List.mem_cons] at h ⊢; tauto
      · simp only [List.mem_cons] at h ⊢
        rcases h with h | h
        · tauto
        · rcases ih h with h | h <;> tauto

theorem Memory.wf_nil : Memory.wf [] := by simp [Memory.wf]

/-- A write keeps the canonical form. -/
theorem Memory.wf_write {m : Memory} (h : m.wf) (a : Nat) (v : Byte) : (m.write a v).wf := by
  refine ⟨?_, fun c _ => by simp [Memory.unlisted]⟩
  have hs := h.1
  clear h
  induction m with
  | nil => simp [Memory.write]
  | cons d m ih =>
    simp only [List.map_cons, List.pairwise_cons, List.mem_map, forall_exists_index, and_imp,
      forall_apply_eq_imp_iff₂] at hs
    simp only [Memory.write]
    split
    · rename_i hlt
      simp only [List.map_cons, List.pairwise_cons, List.mem_cons, List.mem_map]
      refine ⟨?_, ?_, hs.2⟩
      · rintro x (rfl | ⟨c, hc, rfl⟩)
        · exact hlt
        · exact lt_trans hlt (hs.1 c hc)
      · rintro x ⟨c, hc, rfl⟩
        exact hs.1 c hc
    · split
      · rename_i heq
        subst heq
        simp only [List.map_cons, List.pairwise_cons, List.mem_map]
        exact ⟨by rintro x ⟨c, hc, rfl⟩; exact hs.1 c hc, hs.2⟩
      · simp only [List.map_cons, List.pairwise_cons, List.mem_map]
        refine ⟨?_, ih hs.2⟩
        rintro x ⟨c, hc, rfl⟩
        rcases Memory.mem_write hc with rfl | hc
        · show d.1 < a
          omega
        · exact hs.1 c hc

/-- Writing a payload keeps the canonical form. -/
theorem Memory.wf_writeFrom {bs : List Byte} {m : Memory} (h : m.wf) (a : Nat) : (m.writeFrom a bs).wf := by
  induction bs generalizing m a with
  | nil => exact h
  | cons v bs ih => exact ih (Memory.wf_write h a v) (a + 1)

/-- Writing a payload lists only addresses already listed and the payload's own. -/
theorem Memory.mem_writeFrom {bs : List Byte} {m : Memory} {a : Nat} {c : Host.Cell} (h : c ∈ m.writeFrom a bs) :
    (a ≤ c.1 ∧ c.1 < a + bs.length) ∨ c ∈ m := by
  induction bs generalizing m a with
  | nil => exact .inr h
  | cons v bs ih =>
    rcases ih h with h | h
    · simp only [List.length_cons]; omega
    · rcases Memory.mem_write h with rfl | h
      · simp
      · exact .inr h

end Sys2Proof.Machine
end

