-- ==== Sys2Proof/Laws/Ops.lean ====
section
/-! SUPPORT. One law per shared operation: what it answers, in closed form, from a state whose buffer is loaded. The
provers cite these and unfold none of the operations. -/

namespace Sys2Proof.Machine

/-! ## Sequencing and ending -/

section Sequencing
variable {α β : Type} (k : α → State → Taken β) (s : State)

@[simp] theorem Taken.andThen_got (v : α) : (Taken.got v s).andThen k = k v s := rfl
@[simp] theorem Taken.andThen_failed (f : Failure) : (Taken.failed (α := α) f s).andThen k = .failed f s := rfl
@[simp] theorem Taken.andThen_fault (r : Fault) : (Taken.fault (α := α) r).andThen k = .fault r := rfl
@[simp] theorem Taken.finish_got (p : Payload) : (Taken.got p s).finish = .next (s.deliver (.ok p)) := rfl
@[simp] theorem Taken.finish_failed (f : Failure) : (Taken.failed f s).finish = .next (s.deliver (.failed f)) := rfl
@[simp] theorem Taken.finish_fault (r : Fault) : (Taken.fault r).finish = .fault r := rfl

end Sequencing

/-! ## Bits and the fold -/

theorem Bit.eq_zero_or_one (b : Bit) : b = 0 ∨ b = 1 := by
  have := b.isLt
  rcases (by omega : b.toNat = 0 ∨ b.toNat = 1) with h | h
  · exact .inl (BitVec.eq_of_toNat_eq h)
  · exact .inr (BitVec.eq_of_toNat_eq h)

theorem Bit.ne_one_iff (b : Bit) : b ≠ 1 ↔ b = 0 := by
  rcases Bit.eq_zero_or_one b with rfl | rfl <;> decide

/-- The bit a byte holds at stream offset `j` (20_memory.md R32), as a number. -/
theorem bitOfByte_toNat (B : Byte) (j : Nat) : (bitOfByte B j).toNat = B.toNat / 2 ^ (7 - j) % 2 := by
  simp [bitOfByte, BitVec.extractLsb'_toNat, Nat.shiftRight_eq_div_pow]

@[simp] theorem fold_nil : fold [] = 0 := rfl

/-- `Fold(s ++ [b]) = 2 * Fold(s) + b` (41_multibit_readers.md R95). -/
theorem fold_snoc (s : List Bit) (b : Bit) : fold (s ++ [b]) = 2 * fold s + b.toNat := by
  simp [fold]

/-- The fold of two parts, the first the more significant. -/
theorem fold_append (s t : List Bit) : fold (s ++ t) = fold s * 2 ^ t.length + fold t := by
  induction t using List.reverseRecOn with
  | nil => simp
  | append_singleton t b ih =>
    rw [← List.append_assoc, fold_snoc, ih, fold_snoc]
    simp [pow_succ]; ring

theorem fold_cons (b : Bit) (s : List Bit) : fold (b :: s) = b.toNat * 2 ^ s.length + fold s := by
  have := fold_append [b] s
  simpa [fold] using this

/-- `Fold(s) <= 2^n - 1` (41_multibit_readers.md R95). -/
theorem fold_lt (s : List Bit) : fold s < 2 ^ s.length := by
  induction s using List.reverseRecOn with
  | nil => simp
  | append_singleton s b ih =>
    have := b.isLt
    rw [fold_snoc]; simp [pow_succ]; omega

/-! ## Groups of stream bits -/

section Groups
variable (s : State)

@[simp] theorem State.length_group (p n : Nat) : (s.group p n).length = n := by simp [State.group]

@[simp] theorem State.group_zero (p : Nat) : s.group p 0 = [] := rfl

theorem State.group_succ (p n : Nat) : s.group p (n + 1) = s.BIT p :: s.group (p + 1) n := by
  simp [State.group, List.range_succ_eq_map, Function.comp_def, Nat.add_assoc, Nat.add_comm 1]

/-- A group is a first part and the rest (20_memory.md R34). -/
theorem State.group_add (p m n : Nat) : s.group p (m + n) = s.group p m ++ s.group (p + m) n := by
  induction m generalizing p with
  | zero => simp
  | succ m ih => rw [Nat.succ_add, State.group_succ, ih, State.group_succ, Nat.add_assoc p 1 m, Nat.add_comm 1 m]; rfl

@[simp] theorem State.BIT_withPOS (p i : Nat) : (s.withPOS p).BIT i = s.BIT i := rfl
@[simp] theorem State.group_withPOS (q p n : Nat) : (s.withPOS q).group p n = s.group p n := rfl
@[simp] theorem State.groupValue_withPOS (q p n : Nat) : (s.withPOS q).groupValue p n = s.groupValue p n := rfl

/-- The fold of a group is the sum of 20_memory.md R34. -/
theorem State.fold_group (p n : Nat) : fold (s.group p n) = s.groupValue p n := by
  induction n generalizing p with
  | zero => rfl
  | succ n ih =>
    rw [State.group_succ, fold_cons, ih, State.length_group, State.groupValue, State.groupValue,
      Finset.sum_range_succ', Nat.add_comm]
    congr 1
    refine Finset.sum_congr rfl fun i hi => ?_
    have : n + 1 - 1 - (i + 1) = n - 1 - i := by omega
    rw [this, Nat.add_assoc, Nat.add_comm 1 i]

theorem State.groupValue_lt (p n : Nat) : s.groupValue p n < 2 ^ n := by
  have := fold_lt (s.group p n)
  rwa [State.fold_group, State.length_group] at this

end Groups

/-! ## The bit primitive and its compositions -/

section Taking
variable {s : State}

/-- NextBit at exhaustion (40_cursor_primitive.md R73). -/
theorem nextBit_exhausted (h : 8 * s.LEN ≤ s.POS) : nextBit s = .failed .endOfStream s := by
  simp [nextBit, exhausted, h]

/-- NextBit when a bit remains (40_cursor_primitive.md R72). -/
theorem nextBit_got (hl : s.bufferLoaded) (h : s.POS < 8 * s.LEN) :
    nextBit s = .got (s.BIT s.POS) (s.withPOS (s.POS + 1)) := by
  obtain ⟨B, hB⟩ := Option.isSome_iff_exists.1 (hl (s.POS / 8) (by omega))
  have hx : exhausted s = false := by simp [exhausted]; omega
  simp [nextBit, hx, hB, State.BIT, State.advance_eq_withPOS]

/-- `n` calls of NextBit when `n` bits remain (41_multibit_readers.md R93). -/
theorem takeBits_got {n : Nat} (hl : s.bufferLoaded) (h : s.POS + n ≤ 8 * s.LEN) :
    takeBits n s = .got (s.group s.POS n) (s.withPOS (s.POS + n)) := by
  induction n generalizing s with
  | zero => rfl
  | succ n ih =>
    rw [takeBits, nextBit_got hl (by omega), Taken.andThen_got, ih (s := s.withPOS (s.POS + 1)) hl (by simp; omega)]
    simp [State.group_succ, Nat.add_assoc, Nat.add_comm 1 n]

/-- `n` calls of NextBit when fewer than `n` bits remain: all of them are consumed (41_multibit_readers.md R92). -/
theorem takeBits_short {n : Nat} (hl : s.bufferLoaded) (hp : s.POS ≤ 8 * s.LEN) (h : 8 * s.LEN < s.POS + n) :
    takeBits n s = .failed .endOfStream (s.withPOS (8 * s.LEN)) := by
  induction n generalizing s with
  | zero => omega
  | succ n ih =>
    by_cases he : 8 * s.LEN ≤ s.POS
    · rw [takeBits, nextBit_exhausted he, State.withPOS_self s _ (by omega)]; rfl
    · rw [takeBits, nextBit_got hl (by omega), Taken.andThen_got,
        ih (s := s.withPOS (s.POS + 1)) hl (by simp; omega) (by simp; omega)]
      rfl

/-- A byte when 8 bits remain (41_multibit_readers.md R97). -/
theorem takeByte_got (hl : s.bufferLoaded) (h : s.POS + 8 ≤ 8 * s.LEN) :
    takeByte s = .got (byteOfBits (s.group s.POS 8)) (s.withPOS (s.POS + 8)) := by
  rw [takeByte, takeBits_got hl h]; rfl

theorem takeByte_short (hl : s.bufferLoaded) (hp : s.POS ≤ 8 * s.LEN) (h : 8 * s.LEN < s.POS + 8) :
    takeByte s = .failed .endOfStream (s.withPOS (8 * s.LEN)) := by
  rw [takeByte, takeBits_short hl hp h]; rfl

/-- `n` bytes when `8 * n` bits remain (41_multibit_readers.md R98). -/
theorem takeBytes_got {n : Nat} (hl : s.bufferLoaded) (h : s.POS + 8 * n ≤ 8 * s.LEN) :
    takeBytes n s =
      .got ((List.range n).map fun j => byteOfBits (s.group (s.POS + 8 * j) 8)) (s.withPOS (s.POS + 8 * n)) := by
  induction n generalizing s with
  | zero => rfl
  | succ n ih =>
    rw [takeBytes, takeByte_got hl (by omega), Taken.andThen_got, ih (s := s.withPOS (s.POS + 8)) hl (by simp; omega)]
    simp [List.range_succ_eq_map, Function.comp_def, Nat.mul_add, Nat.add_assoc, Nat.add_comm 8]

/-- `n` bytes when fewer than `8 * n` bits remain (41_multibit_readers.md R99). -/
theorem takeBytes_short {n : Nat} (hl : s.bufferLoaded) (hp : s.POS ≤ 8 * s.LEN) (h : 8 * s.LEN < s.POS + 8 * n) :
    takeBytes n s = .failed .endOfStream (s.withPOS (8 * s.LEN)) := by
  induction n generalizing s with
  | zero => omega
  | succ n ih =>
    by_cases he : 8 * s.LEN < s.POS + 8
    · rw [takeBytes, takeByte_short hl hp he]; rfl
    · rw [takeBytes, takeByte_got hl (by omega), Taken.andThen_got,
        ih (s := s.withPOS (s.POS + 8)) hl (by simp; omega) (by simp; omega)]
      rfl

/-- The prefix scan when the first 1 stands after `z` zeros (42_exp_golomb.md R111). -/
theorem scanPrefix_found {z fuel : Nat} (hl : s.bufferLoaded) (hz : s.POS + z < 8 * s.LEN)
    (h1 : s.BIT (s.POS + z) = 1) (h0 : ∀ j, j < z → s.BIT (s.POS + j) = 0) (hf : z ≤ fuel) :
    scanPrefix fuel s = .got (s.group s.POS (z + 1)) (s.withPOS (s.POS + z + 1)) := by
  induction z generalizing s fuel with
  | zero =>
    have h1 : s.BIT s.POS = 1 := h1
    cases fuel with
    | zero => rw [scanPrefix, nextBit_got hl (by omega)]; rfl
    | succ fuel => rw [scanPrefix, nextBit_got hl (by omega), Taken.andThen_got, if_pos h1]; rfl
  | succ z ih =>
    obtain ⟨fuel, rfl⟩ : ∃ m, fuel = m + 1 := ⟨fuel - 1, by omega⟩
    have hb : s.BIT s.POS ≠ 1 := (Bit.ne_one_iff _).2 (h0 0 (by omega))
    rw [scanPrefix, nextBit_got hl (by omega), Taken.andThen_got, if_neg hb,
      ih (s := s.withPOS (s.POS + 1)) hl (by simp; omega)
        (by simpa [Nat.add_assoc, Nat.add_comm 1 z] using h1)
        (fun j hj => by simpa [Nat.add_assoc, Nat.add_comm 1 j] using h0 (j + 1) (by omega)) (by omega)]
    simp [State.group_succ _ _ (z + 1), Nat.add_assoc, Nat.add_comm 1]

/-- The prefix scan when no 1 remains: every remaining bit is consumed (42_exp_golomb.md R111, R119). -/
theorem scanPrefix_none {fuel : Nat} (hl : s.bufferLoaded) (hp : s.POS ≤ 8 * s.LEN)
    (h0 : ∀ j, s.POS + j < 8 * s.LEN → s.BIT (s.POS + j) = 0) (hf : 8 * s.LEN ≤ s.POS + fuel) :
    scanPrefix fuel s = .failed .endOfStream (s.withPOS (8 * s.LEN)) := by
  induction fuel generalizing s with
  | zero => rw [scanPrefix, nextBit_exhausted (by omega), State.withPOS_self s _ (by omega)]; rfl
  | succ fuel ih =>
    by_cases he : 8 * s.LEN ≤ s.POS
    · rw [scanPrefix, nextBit_exhausted he, State.withPOS_self s _ (by omega)]; rfl
    · have hb : s.BIT s.POS ≠ 1 := (Bit.ne_one_iff _).2 (h0 0 (by omega))
      rw [scanPrefix, nextBit_got hl (by omega), Taken.andThen_got, if_neg hb,
        ih (s := s.withPOS (s.POS + 1)) hl (by simp; omega)
          (fun j hj => by
            have hj : s.POS + 1 + j < 8 * s.LEN := hj
            simpa [Nat.add_assoc, Nat.add_comm 1 j] using h0 (j + 1) (by omega))
          (by simp; omega)]
      rfl

/-- Among the unread bits there is a first 1, or there is none. -/
theorem State.firstOne_cases (s : State) : s.NoOneRemains ∨ ∃ z, s.FirstOneAfter z := by
  by_cases h : ∃ z, z < Machine.remainingBits s ∧ s.BIT (s.POS + z) = 1
  · refine .inr ?_
    classical
    refine ⟨Nat.find h, (Nat.find_spec h).1, (Nat.find_spec h).2, fun j hj => ?_⟩
    have := Nat.find_min h hj
    have hr := (Nat.find_spec h).1
    exact (Bit.ne_one_iff _).1 fun h1 => this ⟨by omega, h1⟩
  · refine .inl fun j hj => (Bit.ne_one_iff _).1 fun h1 => h ⟨j, hj, h1⟩

/-- The working sequence when the code is complete (42_exp_golomb.md R111, R112): `2 * z + 1` bits. -/
theorem takeWorkingSequence_got {z : Nat} (hl : s.bufferLoaded) (hz : s.FirstOneAfter z)
    (h : 2 * z + 1 ≤ Machine.remainingBits s) :
    takeWorkingSequence s = .got (s.group s.POS (2 * z + 1)) (s.withPOS (s.POS + (2 * z + 1))) := by
  obtain ⟨hr, h1, h0⟩ := hz
  simp only [Machine.remainingBits] at h hr
  rw [takeWorkingSequence, scanPrefix_found hl (by omega) h1 h0 (by simp only [Machine.remainingBits]; omega),
    Taken.andThen_got, State.length_group, Nat.add_sub_cancel,
    takeBits_got (s := s.withPOS (s.POS + z + 1)) hl (by simp; omega), Taken.andThen_got]
  have e : 2 * z + 1 = (z + 1) + z := by omega
  rw [e, State.group_add s s.POS (z + 1) z, ← Nat.add_assoc s.POS (z + 1) z]
  rfl

/-- The working sequence when the data ends inside the suffix (42_exp_golomb.md R112, R121). -/
theorem takeWorkingSequence_short {z : Nat} (hl : s.bufferLoaded) (hz : s.FirstOneAfter z)
    (h : Machine.remainingBits s < 2 * z + 1) :
    takeWorkingSequence s = .failed .endOfStream (s.withPOS (8 * s.LEN)) := by
  obtain ⟨hr, h1, h0⟩ := hz
  simp only [Machine.remainingBits] at h hr
  rw [takeWorkingSequence, scanPrefix_found hl (by omega) h1 h0 (by simp only [Machine.remainingBits]; omega),
    Taken.andThen_got, State.length_group, Nat.add_sub_cancel,
    takeBits_short (s := s.withPOS (s.POS + z + 1)) hl (by simp; omega) (by simp; omega)]
  rfl

/-- The working sequence when no 1 remains (42_exp_golomb.md R111, R121). -/
theorem takeWorkingSequence_none (hl : s.bufferLoaded) (hp : s.POS ≤ 8 * s.LEN) (h : s.NoOneRemains) :
    takeWorkingSequence s = .failed .endOfStream (s.withPOS (8 * s.LEN)) := by
  rw [takeWorkingSequence, scanPrefix_none hl hp
    (fun j hj => h j (by simp only [Machine.remainingBits]; omega)) (by simp only [Machine.remainingBits]; omega)]
  rfl

end Taking

/-! ## Payload and port -/

/-- Taking payload, both cases (30_encoding.md R58). -/
theorem takePayload_cases (p : LoadProgress) (s : State) :
    (p.taken.length + s.dataIn.length < p.count ∧
      takePayload p s = .next ((s.takeData s.dataIn.length).setProgress (some ⟨p.count, p.taken ++ s.dataIn⟩))) ∨
    (p.count ≤ p.taken.length + s.dataIn.length ∧
      takePayload p s =
        completeLoad p.count (p.taken ++ s.dataIn.take (p.count - p.taken.length))
          ((s.takeData (p.count - p.taken.length)).setProgress none)) := by
  by_cases h : p.taken.length + s.dataIn.length < p.count
  · refine .inl ⟨h, ?_⟩
    have hn : s.dataIn.length ≤ p.count - p.taken.length := by omega
    have h' : (p.taken ++ s.dataIn).length < p.count := by simpa using h
    simp only [takePayload, List.take_of_length_le hn, if_pos h', State.takeData, List.drop_of_length_le hn, List.drop_length]
  · refine .inr ⟨by omega, ?_⟩
    have h' : ¬ (p.taken ++ s.dataIn.take (p.count - p.taken.length)).length < p.count := by
      simp only [List.length_append, List.length_take]; omega
    simp only [takePayload, if_neg h']

/-- The end of a LOAD, both cases (40_cursor_primitive.md R70). -/
theorem completeLoad_eq (n : Nat) (bytes : List Byte) (s : State) :
    completeLoad n bytes s =
      .next (if s.cfg.CAP < n then s.deliver (.failed .illegal) else (s.construct n bytes).deliver (.ok .empty)) := by
  by_cases h : s.cfg.CAP < n <;> simp [completeLoad, exceedsCapacity, raise, respond, h]

/-- What the unit does next, by cases of the port. -/
theorem fetch_atOnce {s : State} (h : s.resetIn = .atOnce) : fetch s = .reset s := by simp [fetch, h]

theorem fetch_during {s : State} {k : Nat} (h : s.resetIn = .during k) : fetch s = .reset (s.takeCut k) := by
  simp [fetch, h]

/-- Any reset: it is performed on the state but for the word and the payload that a command it cuts has taken. -/
theorem fetch_reset {s : State} (h : s.resetIn ≠ .released) :
    ∃ t, fetch s = .reset t ∧ t.cfg = s.cfg ∧ t.BUF = s.BUF ∧ t.responses = s.responses ∧
      (t.cmdIn = s.cmdIn ∨ ∃ c, s.cmdIn = c :: t.cmdIn) ∧ ∃ k, t.dataIn = s.dataIn.drop k := by
  cases hr : s.resetIn with
  | released => exact absurd hr h
  | atOnce => exact ⟨s, fetch_atOnce hr, rfl, rfl, rfl, .inl rfl, 0, rfl⟩
  | during k => exact ⟨s.takeCut k, fetch_during hr, rfl, rfl, rfl, s.takeCut_cmdIn_cases k, _, rfl⟩

theorem fetch_resume {s : State} {p : LoadProgress} (h : s.resetIn = .released) (hp : s.inProgress = some p) :
    fetch s = .resume p := by simp [fetch, h, hp]

theorem fetch_idle {s : State} (h : s.resetIn = .released) (hp : s.inProgress = none) (hc : s.cmdIn = []) :
    fetch s = .idle := by simp [fetch, h, hp, hc]

theorem fetch_word {s : State} {c : Word} {rest : List Word} (h : s.resetIn = .released) (hp : s.inProgress = none)
    (hc : s.cmdIn = c :: rest) : fetch s = .word c (s.setCommands rest) := by simp [fetch, h, hp, hc]

end Sys2Proof.Machine
end

