-- ==== Sys2Proof/Laws/Invariant.lean ====
section
/-! SUPPORT. What the invariant and the legality of the parameters say, one named fact each, so that no proof takes the
conjunction apart by position. -/

namespace Sys2Proof.Machine

/-- Legal parameters: `CAP <= 2^28 - 1` (00_scope.md R5). -/
theorem Config.capacity_of_legal {c : Config} (h : c.legal = true) : c.CAP < 2 ^ 28 := by
  simp only [Config.legal, Bool.and_eq_true] at h
  have := of_decide_eq_true h.2
  simp only [maxCount] at this
  omega

/-- Legal parameters: `W >= 8` (00_scope.md R4), so that a fold of at most 8 bits is never too wide. -/
theorem Config.width_of_legal {c : Config} {n : Nat} (h : c.legal = true) (hn : n ≤ 8) :
    exceedsWidth c.W n = false := by
  obtain ⟨W, C⟩ := c
  cases W with
  | inf => rfl
  | finite w =>
    simp only [Config.legal, Bool.and_eq_true, Width.legal] at h
    have := of_decide_eq_true h.1
    simp only [exceedsWidth, decide_eq_false_iff_not]
    omega

section Invariant
variable {s : State}

theorem State.Inv_legal (h : s.Inv) : s.cfg.legal = true := h.1
theorem State.Inv_memory (h : s.Inv) : s.BUF.wf := h.2.1
theorem State.Inv_loaded (h : s.Inv) : s.bufferLoaded := h.2.2.1
theorem State.Inv_inCapacity (h : s.Inv) : s.bufferInCapacity := h.2.2.2.1
theorem State.Inv_len (h : s.Inv) : s.LEN ≤ s.cfg.CAP := h.2.2.2.2.1
theorem State.Inv_pos (h : s.Inv) : s.POS ≤ 8 * s.LEN := h.2.2.2.2.2.1
theorem State.Inv_progress (h : s.Inv) : s.progressOpen := h.2.2.2.2.2.2

/-- `POS + remaining_bits = 8 * LEN` (10_state.md R17). -/
theorem State.pos_add_remaining (h : s.Inv) : s.POS + Machine.remainingBits s = 8 * s.LEN := by
  have := State.Inv_pos h
  simp only [Machine.remainingBits]
  omega

end Invariant

end Sys2Proof.Machine
end

