-- ==== Sys2Proof/Laws/Frame.lean ====
section
/-! SUPPORT. The frame of the bit primitive and of everything built on it, in every state: whatever it comes to, the state
it leaves differs from the one it started from in POS alone, which has not gone down (20_memory.md R38, 10_state.md R21). -/

namespace Sys2Proof.Machine

/-- The state reached from `s` differs from it in POS alone, and POS has not gone down. -/
def State.advancesTo (s t : State) : Prop := ∃ p, s.POS ≤ p ∧ t = s.withPOS p

/-- Whatever the piece of pseudocode comes to, it has only advanced POS. -/
def Taken.onlyAdvances {α : Type} (s : State) : Taken α → Prop
  | .got _ t => s.advancesTo t
  | .failed _ t => s.advancesTo t
  | .fault _ => True

theorem State.advancesTo_refl (s : State) : s.advancesTo s := ⟨s.POS, le_rfl, rfl⟩

theorem State.advancesTo_trans {s t u : State} (h : s.advancesTo t) (h' : t.advancesTo u) : s.advancesTo u := by
  obtain ⟨p, hp, rfl⟩ := h
  obtain ⟨q, hq, rfl⟩ := h'
  exact ⟨q, le_trans hp hq, rfl⟩

theorem Taken.onlyAdvances_trans {α : Type} {s t : State} {x : Taken α} (h : s.advancesTo t) (hx : x.onlyAdvances t) :
    x.onlyAdvances s := by
  cases x with
  | got v u => exact State.advancesTo_trans h hx
  | failed f u => exact State.advancesTo_trans h hx
  | fault r => trivial

/-- Sequencing keeps the frame. -/
theorem Taken.onlyAdvances_andThen {α β : Type} {s : State} {x : Taken α} {k : α → State → Taken β}
    (hx : x.onlyAdvances s) (hk : ∀ v t, (k v t).onlyAdvances t) : (x.andThen k).onlyAdvances s := by
  cases x with
  | got v t => exact Taken.onlyAdvances_trans hx (hk v t)
  | failed f t => exact hx
  | fault r => trivial

theorem Taken.onlyAdvances_got {α : Type} (v : α) (s : State) : (Taken.got v s).onlyAdvances s := s.advancesTo_refl

theorem nextBit_onlyAdvances (s : State) : (nextBit s).onlyAdvances s := by
  unfold nextBit
  split
  · exact s.advancesTo_refl
  · split
    · exact ⟨s.POS + 1, Nat.le_succ _, rfl⟩
    · trivial

theorem takeBits_onlyAdvances (n : Nat) (s : State) : (takeBits n s).onlyAdvances s := by
  induction n generalizing s with
  | zero => exact Taken.onlyAdvances_got _ s
  | succ n ih =>
    exact Taken.onlyAdvances_andThen (nextBit_onlyAdvances s) fun b t =>
      Taken.onlyAdvances_andThen (ih t) fun bs u => Taken.onlyAdvances_got _ u

theorem takeByte_onlyAdvances (s : State) : (takeByte s).onlyAdvances s :=
  Taken.onlyAdvances_andThen (takeBits_onlyAdvances 8 s) fun _ t => Taken.onlyAdvances_got _ t

theorem takeBytes_onlyAdvances (n : Nat) (s : State) : (takeBytes n s).onlyAdvances s := by
  induction n generalizing s with
  | zero => exact Taken.onlyAdvances_got _ s
  | succ n ih =>
    exact Taken.onlyAdvances_andThen (takeByte_onlyAdvances s) fun b t =>
      Taken.onlyAdvances_andThen (ih t) fun bs u => Taken.onlyAdvances_got _ u

theorem scanPrefix_onlyAdvances (fuel : Nat) (s : State) : (scanPrefix fuel s).onlyAdvances s := by
  induction fuel generalizing s with
  | zero => exact Taken.onlyAdvances_andThen (nextBit_onlyAdvances s) fun b t => Taken.onlyAdvances_got _ t
  | succ fuel ih =>
    refine Taken.onlyAdvances_andThen (nextBit_onlyAdvances s) fun b t => ?_
    split
    · exact Taken.onlyAdvances_got _ t
    · exact Taken.onlyAdvances_andThen (ih t) fun bs u => Taken.onlyAdvances_got _ u

theorem takeWorkingSequence_onlyAdvances (s : State) : (takeWorkingSequence s).onlyAdvances s :=
  Taken.onlyAdvances_andThen (scanPrefix_onlyAdvances _ s) fun _ t =>
    Taken.onlyAdvances_andThen (takeBits_onlyAdvances _ t) fun _ u => Taken.onlyAdvances_got _ u

theorem decodeExpGolomb_onlyAdvances (signed : Bool) (seq : List Bit) (s : State) :
    (decodeExpGolomb signed seq s).onlyAdvances s := by
  unfold decodeExpGolomb
  split
  · exact s.advancesTo_refl
  · exact s.advancesTo_refl

/-- A command that ends in a next state has delivered one response after an advance of POS. -/
theorem Taken.finish_next {s t : State} {x : Taken Payload} (hx : x.onlyAdvances s) (h : x.finish = .next t) :
    ∃ p r, s.POS ≤ p ∧ t = (s.withPOS p).deliver r := by
  cases x with
  | got v u =>
    obtain ⟨p, hp, rfl⟩ := hx
    injection h with h
    exact ⟨p, .ok v, hp, h.symm⟩
  | failed f u =>
    obtain ⟨p, hp, rfl⟩ := hx
    injection h with h
    exact ⟨p, .failed f, hp, h.symm⟩
  | fault r => cases h

end Sys2Proof.Machine
end

