-- ==== Sys2Proof/Laws/PerInstr.lean ====
section
/-! SUPPORT. The per-instruction family EncodeFields: the encoder puts the command's code value in OP and its operand in
ARG, and the operand is read back from ARG (30_encoding.md R51, R52, R53, R54). -/

namespace Sys2Proof

theorem opField_toNat (c : Word) : (opField c).toNat = c.toNat / 2 ^ 28 := by
  have := c.isLt
  simp only [opField, BitVec.extractLsb'_toNat, Nat.shiftRight_eq_div_pow]
  omega

theorem argField_toNat (c : Word) : (argField c).toNat = c.toNat % 2 ^ 28 := by
  simp [argField, BitVec.extractLsb'_toNat]

theorem commandWord_toNat (op : OpField) (arg : ArgField) :
    (commandWord op arg).toNat = op.toNat * 2 ^ 28 + arg.toNat := by
  have := op.isLt
  have := arg.isLt
  simp only [commandWord, BitVec.toNat_ofNat]
  omega

theorem opField_commandWord (op : OpField) (arg : ArgField) : opField (commandWord op arg) = op := by
  have := arg.isLt
  apply BitVec.eq_of_toNat_eq
  rw [opField_toNat, commandWord_toNat]
  omega

theorem argField_commandWord (op : OpField) (arg : ArgField) : argField (commandWord op arg) = arg := by
  have := arg.isLt
  apply BitVec.eq_of_toNat_eq
  rw [argField_toNat, commandWord_toNat]
  omega

/-- A word is its two fields (30_encoding.md R51, R52). -/
theorem commandWord_fields (c : Word) : commandWord (opField c) (argField c) = c := by
  apply BitVec.eq_of_toNat_eq
  rw [commandWord_toNat, opField_toNat, argField_toNat]
  omega

namespace Laws.EncodeFields

/-- The encoded word carries the code value and the operand of the instruction in their fields; a count is read back from
ARG exactly. -/
def Statement (i : Instr) : Prop :=
  opField (encode i) = opcodeOf i ∧ argField (encode i) = operandOf i ∧
    ∀ n, i = .load n ∨ i = .readBits n ∨ i = .readUint n ∨ i = .readBytes n → i.wf = true → (operandOf i).toNat = n

theorem fields_of_count {i : Instr}
    (h : ∀ n, i = .load n ∨ i = .readBits n ∨ i = .readUint n ∨ i = .readBytes n → i.wf = true → (operandOf i).toNat = n) :
    Statement i := ⟨opField_commandWord _ _, argField_commandWord _ _, h⟩

theorem toNat_count {n : Nat} (h : countFits n = true) : (BitVec.ofNat 28 n).toNat = n := by
  simp only [countFits, decide_eq_true_eq] at h
  simpa using h

theorem load (n : Nat) : Statement (.load n) :=
  fields_of_count fun m hm hw => by obtain rfl : n = m := by simpa using hm
                                    exact toNat_count hw

theorem readBit : Statement .readBit := fields_of_count fun m hm => by simp at hm

theorem readBits (n : Nat) : Statement (.readBits n) :=
  fields_of_count fun m hm hw => by obtain rfl : n = m := by simpa using hm
                                    exact toNat_count hw

theorem readUint (n : Nat) : Statement (.readUint n) :=
  fields_of_count fun m hm hw => by obtain rfl : n = m := by simpa using hm
                                    exact toNat_count hw

theorem readByte : Statement .readByte := fields_of_count fun m hm => by simp at hm

theorem readBytes (n : Nat) : Statement (.readBytes n) :=
  fields_of_count fun m hm hw => by obtain rfl : n = m := by simpa using hm
                                    exact toNat_count hw

theorem readExpGolomb (signed : Bool) : Statement (.readExpGolomb signed) :=
  fields_of_count fun m hm => by simp at hm

theorem remainingBits : Statement .remainingBits := fields_of_count fun m hm => by simp at hm

end Laws.EncodeFields

end Sys2Proof
end

