-- ==== Sys2Proof/Tests/Slice0.lean ====
section
/-! SUPPORT. Tests on fixed values. Every expected result is transcribed from spec/95_test_vectors.md (the section is named
at each test) or worked out by hand from the rule named; none was taken from the model. -/

namespace Sys2Proof.Tests
open Sys2Proof.Machine

/-- A unit of result width W and the largest capacity, with `bytes` loaded and `pos` bits consumed. -/
def loaded (W : Width) (bytes : List Byte) (pos : Nat) : State :=
  { State.resetWith ⟨W, maxCount⟩ with BUF := Memory.writeFrom [] 0 bytes, LEN := bytes.length, POS := pos }

def at64 (bytes : List Byte) (pos : Nat) : State := loaded (.finite 64) bytes pos

/-- The outcome is the next state `t`. -/
def isNext (o : Host.Outcome State Fault Refusal) (t : State) : Bool :=
  match o with
  | .next u => u == t
  | .fault _ => false
  | .refused _ => false

/-- The outcome is a next state. -/
def goesOn (o : Host.Outcome State Fault Refusal) : Bool :=
  match o with
  | .next _ => true
  | .fault _ => false
  | .refused _ => false

/-- The command leaves `s` with POS at `p` and the response `r`, and nothing else changed. -/
def answers (i : Instr) (s : State) (p : Nat) (r : Response) : Bool := isNext (exec i s) (s.answered p r)

/-- A 64-bit result. -/
def word64 (v : Int) : Response := .ok (.result (.bits 64 (BitVec.ofInt 64 v)))

/-! ## WellFormed: each check refuses an ill-formed instruction (30_encoding.md R54: counts are below 2^28) -/

theorem test_load_count_too_large : (Instr.load (2 ^ 28)).wf = false := by decide
theorem test_readBits_count_too_large : (Instr.readBits (2 ^ 28)).wf = false := by decide
theorem test_readUint_count_too_large : (Instr.readUint (2 ^ 28)).wf = false := by decide
theorem test_readBytes_count_too_large : (Instr.readBytes (2 ^ 28)).wf = false := by decide
theorem test_largest_count_is_wf : (Instr.readBits (2 ^ 28 - 1)).wf = true := by decide

/-! ## Decoding: words written out bit by bit from the encodings of the opcode table; results from section 4 -/

theorem test_decode_load : decode 0b00010000000000000000000000000011 = .ok (.load 3) := by decide
theorem test_decode_readBit : decode 0b00100000000000000000000000000000 = .ok .readBit := by decide
theorem test_decode_readBits : decode 0b00110000000000000000000000011000 = .ok (.readBits 24) := by decide
theorem test_decode_readBits_largest : decode 0x3FFFFFFF = .ok (.readBits 268435455) := by decide
theorem test_decode_readUint : decode 0b01000000000000000000000001000001 = .ok (.readUint 65) := by decide
theorem test_decode_readByte : decode 0b01010000000000000000000000000000 = .ok .readByte := by decide
theorem test_decode_readBytes : decode 0b01100000000000000000000000000010 = .ok (.readBytes 2) := by decide
theorem test_decode_readUe : decode 0b01110000000000000000000000000000 = .ok (.readExpGolomb false) := by decide
theorem test_decode_readSe : decode 0b01110000000000000000000000000001 = .ok (.readExpGolomb true) := by decide
theorem test_decode_remainingBits : decode 0b10000000000000000000000000000000 = .ok .remainingBits := by decide
theorem test_decode_zero : decode 0x00000000 = .error (.reservedOpcode 0) := by decide
theorem test_decode_ones : decode 0xFFFFFFFF = .error (.reservedOpcode 0xF) := by decide
theorem test_decode_readBit_argument : decode 0x20000001 = .error (.reservedArgument 2 1) := by decide
theorem test_decode_readByte_argument : decode 0x50000100 = .error (.reservedArgument 5 0x100) := by decide
theorem test_decode_expGolomb_argument : decode 0x70000003 = .error (.reservedArgument 7 3) := by decide
theorem test_decode_remainingBits_argument : decode 0x80000001 = .error (.reservedArgument 8 1) := by decide

/-- No word is of two rows of the opcode table. -/
theorem test_opcode_rows_do_not_overlap :
    opcodeTable.Pairwise (fun r q => r.pattern &&& (r.mask &&& q.mask) ≠ q.pattern &&& (r.mask &&& q.mask)) := by decide

/-! ## LOAD (section 2.7) -/

/-- Replaces an instance of 3 bytes at POS 5 by the single byte 0x80. -/
theorem test_load_replaces :
    isNext (exec (.load 1) { at64 [0x3F, 0x9D, 0x10] 5 with dataIn := [0x80, 0x77] })
      { at64 [0x80, 0x9D, 0x10] 0 with LEN := 1, dataIn := [0x77], responses := [.ok .empty] } = true := by decide

/-- Exceeds CAP = 2: ILLEGAL, payload discarded, state kept. -/
theorem test_load_exceeds_capacity :
    isNext (exec (.load 3) { at64 [0x3F, 0x9D, 0x10] 5 with cfg := ⟨.finite 64, 2⟩, dataIn := [1, 2, 3] })
      { at64 [0x3F, 0x9D, 0x10] 5 with cfg := ⟨.finite 64, 2⟩, responses := [.failed .illegal] } = true := by decide

/-! ## READ_BIT (section 2.1) -/

theorem test_readBit_crosses_byte : answers .readBit (at64 [0x00, 0x80] 8) 9 (.ok (.bit 1)) = true := by decide
theorem test_readBit_exhausted : answers .readBit (at64 [0xA5] 8) 8 (.failed .endOfStream) = true := by decide

/-! ## READ_BITS (section 2.2) -/

theorem test_readBits_crosses_byte :
    answers (.readBits 5) (at64 [0xA5, 0x4B] 6) 11 (.ok (.bits [0, 1, 0, 1, 0])) = true := by decide
theorem test_readBits_largest_operand :
    answers (.readBits 268435455) (at64 [0xA5] 3) 8 (.failed .endOfStream) = true := by decide

/-! ## READ_UINT (section 2.3) -/

theorem test_readUint_unaligned : answers (.readUint 12) (at64 [0xA5, 0x4B] 4) 16 (word64 1355) = true := by decide
theorem test_readUint_width_before_exhaustion :
    answers (.readUint 65) (at64 [] 0) 0 (.failed .widthOverflow) = true := by decide

/-! ## READ_BYTE (section 2.4) -/

theorem test_readByte_unaligned : answers .readByte (at64 [0xA5, 0x4B] 3) 11 (.ok (.byte 42)) = true := by decide
theorem test_readByte_seven_bits_left :
    answers .readByte (at64 [0xA5, 0x4B] 9) 16 (.failed .endOfStream) = true := by decide

/-! ## READ_BYTES (section 2.5) -/

theorem test_readBytes_unaligned :
    answers (.readBytes 2) (at64 [0x3F, 0x9D, 0x10] 4) 20 (.ok (.bytes [249, 209])) = true := by decide
theorem test_readBytes_no_rollback :
    answers (.readBytes 4) (at64 [0x3F, 0x9D, 0x10] 0) 24 (.failed .endOfStream) = true := by decide

/-! ## READ_EXP_GOLOMB (sections 1 S3 and 2.6) -/

theorem test_readSe_even_code_is_negative :
    answers (.readExpGolomb true) (at64 [0xA5, 0x4B] 3) 8 (word64 (-2)) = true := by decide
theorem test_readUe_width_overflow_consumes :
    answers (.readExpGolomb false) (loaded (.finite 8) [0x08, 0x7F] 0) 9 (.failed .widthOverflow) = true := by decide

/-! ## REMAINING_BITS (section 2.7) -/

theorem test_remainingBits : answers .remainingBits (at64 [0x3F, 0x9D, 0x10] 5) 5 (.ok (.count 19)) = true := by decide

/-! ## Steps -/

/-- Section 3, P6, line 4: an illegal word leaves the cursor alone. -/
theorem test_step_illegal_word :
    isNext (step { at64 [0xA5] 3 with cmdIn := [0x70000002, 0x80000000] })
      { at64 [0xA5] 3 with cmdIn := [0x80000000], responses := [.failed .illegal] } = true := by decide

/-- 30_encoding.md R58: two of three payload bytes have arrived; the third completes the LOAD, and no word is taken. -/
theorem test_step_load_completes :
    isNext (step { State.reset with inProgress := some ⟨3, [0x3F, 0x9D]⟩, dataIn := [0x10], cmdIn := [0x20000000] })
      { at64 [0x3F, 0x9D, 0x10] 0 with cmdIn := [0x20000000], responses := [.ok .empty] } = true := by decide

/-- 70_reset_and_hazards.md R151: reset abandons a LOAD with no response. -/
theorem test_step_reset_abandons_load :
    isNext (step { at64 [0xA5] 3 with inProgress := some ⟨3, [0x3F]⟩, resetIn := .atOnce })
      { at64 [0xA5] 0 with LEN := 0 } = true := by decide

/-- R151: a reset during a READ_BIT abandons it: its word is gone, it has no response, and the next word stays. -/
theorem test_step_reset_abandons_read :
    isNext (step { at64 [0xA5] 3 with cmdIn := [0x20000000, 0x80000000], resetIn := .during 0 })
      { at64 [0xA5] 0 with LEN := 0, cmdIn := [0x80000000] } = true := by decide

/-- R151: a reset one byte into a LOAD 2 whose payload is there; the byte taken is gone (log 4). -/
theorem test_step_reset_cuts_load :
    isNext (step { at64 [0xA5] 3 with cmdIn := [0x10000002], dataIn := [1, 2], resetIn := .during 1 })
      { at64 [0xA5] 0 with LEN := 0, dataIn := [2] } = true := by decide

/-- The first instruction after reset, placed by `withFetchWord`: LOAD 2 takes its two zero bytes. -/
theorem test_withFetchWord_load :
    isNext (step (State.reset.withFetchWord 32 0x10000002))
      { at64 [0, 0] 0 with responses := [.ok .empty] } = true := by decide

theorem test_withFetchWord_readSe :
    isNext (step (State.reset.withFetchWord 32 0x70000001))
      { State.reset with responses := [.failed .endOfStream] } = true := by decide

/-! ## Witnesses: for each statement with hypotheses, concrete states and operands that meet all of them together, for each
clause at a boundary of its range -/

/-- Result width 8, capacity 2: the narrowest unit. -/
def narrow : Config := ⟨.finite 8, 2⟩

/-- A narrow unit with two bytes loaded, `pos` bits consumed. -/
def narrowAt (bytes : List Byte) (pos : Nat) : State := { loaded (.finite 8) bytes pos with cfg := narrow }

/-- A unit to which the words `cs` and the payload `data` have been presented. -/
def offered (s : State) (cs : List Word) (data : List Byte) : State := { s with cmdIn := cs, dataIn := data }

/-- A unit that waits for the payload of LOAD 2, one byte of it taken, `data` presented. -/
def waiting (s : State) (data : List Byte) : State := { s with inProgress := some ⟨2, [7]⟩, dataIn := data }

/-- A unit whose reset has been asserted. -/
def resetAsserted (s : State) : State := { s with resetIn := .atOnce }

/-- A unit whose reset arrives while its next command is executing, `k` payload bytes in. -/
def resetDuring (s : State) (k : Nat) : State := { s with resetIn := .during k }

theorem witness_ResetEventGivesTheEmptyCursor :
    (resetAsserted (waiting (at64 [0xA5] 3) [])).resetIn ≠ .released ∧
    (resetDuring (offered (at64 [0xA5] 3) [0x20000000] []) 0).resetIn ≠ .released ∧
      exceedsWidth (Width.finite 64) 64 = false := by decide

/-- With a read presented, and with a LOAD that waits. -/
theorem witness_ResetDuringACommandAbandonsIt :
    (resetDuring (offered (at64 [0xA5] 3) [0x20000000] []) 0).resetIn = .during 0 ∧
    (resetDuring (offered (at64 [0xA5] 3) [0x20000000] []) 0).inProgress = none ∧
    (resetDuring (offered (at64 [0xA5] 3) [0x20000000] []) 0).cmdIn = 0x20000000 :: [] ∧
    (resetDuring (waiting (at64 [0xA5] 3) [9]) 1).resetIn = .during 1 ∧
    (resetDuring (waiting (at64 [0xA5] 3) [9]) 1).inProgress = some ⟨2, [7]⟩ := by decide

/-- With a reset asserted, and without. -/
theorem witness_EveryStepLeavesTheResetLineReleased :
    (resetAsserted (at64 [0xA5] 3)).resetIn ≠ .released ∧ goesOn (step (resetAsserted (at64 [0xA5] 3))) = true ∧
    goesOn (step (offered (at64 [0xA5] 3) [0x20000000] [])) = true := by decide

theorem witness_InvariantHoldsAfterReset :
    (⟨.finite 8, 0⟩ : Config).legal = true ∧ (⟨.inf, maxCount⟩ : Config).legal = true := by decide

/-- Idle, and at the end of the data with a read presented. -/
theorem witness_StepKeepsTheInvariant :
    State.reset.Inv ∧ goesOn (step State.reset) = true ∧
    (offered (at64 [0xA5] 8) [0x20000000] []).Inv ∧
    goesOn (step (offered (at64 [0xA5] 8) [0x20000000] [])) = true := by decide

/-- With a LOAD in progress, and with a reset asserted. -/
theorem witness_StepKeepsTheInvariant_port :
    (waiting (narrowAt [1, 2] 16) [8]).Inv ∧ goesOn (step (waiting (narrowAt [1, 2] 16) [8])) = true ∧
    (resetAsserted (narrowAt [1, 2] 9)).Inv ∧ goesOn (step (resetAsserted (narrowAt [1, 2] 9))) = true ∧
    (resetDuring (offered (narrowAt [1, 2] 9) [0x50000000] []) 0).Inv ∧
    goesOn (step (resetDuring (offered (narrowAt [1, 2] 9) [0x50000000] []) 0)) = true := by decide

theorem witness_NoRunEverStops : (offered (narrowAt [1, 2] 9) [0x00000000, 0x70000001, 0x10000002] [9]).Inv := by decide

theorem witness_RegistersFitTheirWidths : (at64 [0xA5, 0x4B] 16).Inv ∧ State.reset.Inv := by decide

theorem witness_StepRunsTheDecodedCommand :
    (offered (at64 [0xA5] 3) [0x70000001] []).resetIn = .released ∧ (offered (at64 [0xA5] 3) [0x70000001] []).inProgress = none ∧
      (offered (at64 [0xA5] 3) [0x70000001] []).cmdIn = 0x70000001 :: [] ∧
      decode 0x70000001 = .ok (.readExpGolomb true) := by decide

theorem witness_IdleUnitHoldsItsState :
    (at64 [0xA5] 3).resetIn = .released ∧ (at64 [0xA5] 3).inProgress = none ∧ (at64 [0xA5] 3).cmdIn = [] := by decide

/-- One payload byte short, and exactly enough. -/
theorem witness_WordsWaitWhileALoadIsInProgress :
    (waiting (at64 [0xA5] 3) []).resetIn = .released ∧ (waiting (at64 [0xA5] 3) []).inProgress = some ⟨2, [7]⟩ ∧
    isNext (step (waiting (at64 [0xA5] 3) [])) (waiting (at64 [0xA5] 3) []) = true ∧
    isNext (step (waiting (at64 [0xA5] 3) [9])) { at64 [7, 9] 0 with responses := [.ok .empty] } = true := by decide

theorem witness_DecodingAnEncodedCommandGivesItBack :
    (Instr.load (2 ^ 28 - 1)).wf = true ∧ (Instr.readBytes 0).wf = true ∧ (Instr.readExpGolomb true).wf = true := by decide

theorem witness_EncodingADecodedWordGivesItBack :
    decode 0x1FFFFFFF = .ok (.load 268435455) ∧ decode 0x80000000 = .ok .remainingBits := by decide

theorem witness_ReservedWordsExecuteAsIllegal :
    ReservedOpcode 0x0FFFFFFF ∧ ReservedOpcode 0x90000000 ∧ ReservedOpcode 0xFFFFFFFF ∧ ReservedArgument 0x20000001 ∧
    ReservedArgument 0x5FFFFFFF ∧ ReservedArgument 0x80000001 ∧ ReservedArgument 0x70000002 ∧
    ¬ (ReservedOpcode 0x10000000 ∨ ReservedArgument 0x10000000) ∧
    ¬ (ReservedOpcode 0x70000001 ∨ ReservedArgument 0x70000001) := by decide

/-- A reserved word, a LOAD one byte above CAP with its payload there, and a LOAD of exactly CAP bytes. -/
theorem witness_IllegalExactlyForReservedWordsAndOversizeLoads :
    (offered (narrowAt [1, 2] 9) [0x70000002] []).Inv ∧
    isNext (step (offered (narrowAt [1, 2] 9) [0x70000002] []))
      { narrowAt [1, 2] 9 with responses := [.failed .illegal] } = true ∧
    (offered (narrowAt [1, 2] 9) [0x10000003] [4, 5, 6]).Inv ∧
    isNext (step (offered (narrowAt [1, 2] 9) [0x10000003] [4, 5, 6]))
      { narrowAt [1, 2] 9 with responses := [.failed .illegal] } = true ∧
    isNext (step (offered (narrowAt [1, 2] 9) [0x10000002] [4, 5]))
      { narrowAt [4, 5] 0 with responses := [.ok .empty] } = true := by decide

/-- n = CAP + 1, n = CAP and n = 0, each with exactly its payload there; and the largest count. -/
theorem witness_LoadBuildsACursorOrIsIllegal :
    3 ≤ (offered (narrowAt [] 0) [] [1, 2, 3]).dataIn.length ∧ narrow.CAP < 3 ∧
    2 ≤ (offered (narrowAt [] 0) [] [1, 2]).dataIn.length ∧ 2 ≤ narrow.CAP ∧
    0 ≤ (narrowAt [] 0).dataIn.length ∧ 2 ^ 28 - 1 < 2 ^ 28 := by decide

theorem witness_LoadPayloadMayArriveInPieces :
    (offered (at64 [0xA5] 3) [] [1, 2]).resetIn = .released ∧ (offered (at64 [0xA5] 3) [] [1, 2]).dataIn.length < 3 := by decide

/-- The LOAD waits, is illegal, completes. -/
theorem witness_LoadChangesOnlyTheCursor :
    goesOn (exec (.load 3) (offered (narrowAt [9] 5) [] [1, 2])) = true ∧
    goesOn (exec (.load 3) (offered (narrowAt [9] 5) [] [1, 2, 3])) = true ∧
    goesOn (exec (.load 2) (offered (narrowAt [9] 5) [] [1, 2, 3])) = true := by decide

theorem witness_BytesReadAfterALoadAreItsPayload :
    2 ≤ (offered (narrowAt [9] 5) [] [1, 2]).dataIn.length ∧ 2 ≤ (offered (narrowAt [9] 5) [] [1, 2]).cfg.CAP := by decide

/-- At the last bit and at the end. -/
theorem witness_NextBitReadsOrFails :
    (at64 [0xA5] 7).Inv ∧ (at64 [0xA5] 7).POS ≠ 8 * (at64 [0xA5] 7).LEN ∧
    (at64 [0xA5] 8).Inv ∧ (at64 [0xA5] 8).POS = 8 * (at64 [0xA5] 8).LEN := by decide

theorem witness_ReadBitReturnsTheNextBit :
    (at64 [0xA5] 7).Inv ∧ (at64 [0xA5] 7).POS < 8 * (at64 [0xA5] 7).LEN ∧
    (at64 [0xA5] 8).Inv ∧ (at64 [0xA5] 8).POS = 8 * (at64 [0xA5] 8).LEN ∧
    (opField 0x20000001).toNat = 0x2 ∧ (argField 0x20000001).toNat ≠ 0 := by decide

/-- n equal to what remains, and one more. -/
theorem witness_ReadBitsReturnsTheGroup :
    (at64 [0xA5] 5).Inv ∧ 3 ≤ remainingBits (at64 [0xA5] 5) ∧ remainingBits (at64 [0xA5] 5) < 4 := by decide

/-- n = W and n = W + 1 at W = 8; n equal to what remains, and one more. -/
theorem witness_ReadUintFoldsTheGroup :
    exceedsWidth (narrowAt [1, 2] 0).cfg.W 9 = true ∧ exceedsWidth (narrowAt [1, 2] 0).cfg.W 8 = false ∧
    (narrowAt [1, 2] 8).Inv ∧ 8 ≤ remainingBits (narrowAt [1, 2] 8) ∧
    (narrowAt [1, 2] 9).Inv ∧ remainingBits (narrowAt [1, 2] 9) < 8 := by decide

theorem witness_ReadByteFoldsEightBits :
    (narrowAt [1, 2] 8).Inv ∧ 8 ≤ remainingBits (narrowAt [1, 2] 8) ∧ (narrowAt [1, 2] 8).POS = 8 * 1 ∧
    (narrowAt [1, 2] 9).Inv ∧ remainingBits (narrowAt [1, 2] 9) < 8 ∧
    (opField 0x50000100).toNat = 0x5 ∧ (argField 0x50000100).toNat ≠ 0 := by decide

theorem witness_ReadBytesReturnsTheBytes :
    (narrowAt [1, 2] 0).Inv ∧ 8 * 2 ≤ remainingBits (narrowAt [1, 2] 0) ∧
    (narrowAt [1, 2] 1).Inv ∧ remainingBits (narrowAt [1, 2] 1) < 8 * 2 := by decide

theorem witness_RemainingBitsIsAPureQuery :
    (narrowAt [1, 2] 16).Inv ∧ (opField 0x80000001).toNat = 0x8 ∧ (argField 0x80000001).toNat ≠ 0 := by decide

/-- A group of n = W bits that is all that remains; m = n; the last byte; the last two bytes at W = 16. -/
theorem witness_GroupsAreBigEndian :
    (narrowAt [1, 2] 8).Inv ∧ exceedsWidth (narrowAt [1, 2] 8).cfg.W 8 = false ∧ 8 ≤ remainingBits (narrowAt [1, 2] 8) ∧
    (narrowAt [1, 2] 8).POS = 8 * 1 ∧ 1 < (narrowAt [1, 2] 8).LEN ∧
    (loaded (.finite 16) [7, 1, 2] 8).Inv ∧ (loaded (.finite 16) [7, 1, 2] 8).POS = 8 * 1 ∧
    1 + 1 < (loaded (.finite 16) [7, 1, 2] 8).LEN ∧ exceedsWidth (.finite 16) 16 = false := by decide

/-- The last position from which a byte can be read, and the next. -/
theorem witness_UnalignedByteSpansTwoBytes :
    (at64 [0xA5, 0x4B] 7).Inv ∧ (at64 [0xA5, 0x4B] 7).POS % 8 ≠ 0 ∧ (at64 [0xA5, 0x4B] 7).POS / 8 + 1 < (at64 [0xA5, 0x4B] 7).LEN ∧
    (at64 [0xA5, 0x4B] 9).Inv ∧ (at64 [0xA5, 0x4B] 9).POS % 8 ≠ 0 ∧
    ¬ (at64 [0xA5, 0x4B] 9).POS / 8 + 1 < (at64 [0xA5, 0x4B] 9).LEN := by decide

theorem witness_FoldedReadsAgreeWithReadBits :
    (narrowAt [1, 2] 8).Inv ∧ exceedsWidth (narrowAt [1, 2] 8).cfg.W 8 = false := by decide

theorem witness_SingleBitReadsFollowTheStream : (at64 [0xA5] 5).Inv ∧ 3 ≤ remainingBits (at64 [0xA5] 5) := by decide

/-- No 1 left, a code cut off by one bit, one too wide, and the widest that fits W = 8. -/
theorem witness_ExpGolombFollowsItsFourSteps :
    (opField 0x70000002).toNat = 0x7 ∧ (argField 0x70000002).toNat / 2 ≠ 0 ∧
    (narrowAt [0x00] 3).Inv ∧ (∀ j, j < remainingBits (narrowAt [0x00] 3) → (narrowAt [0x00] 3).BIT (3 + j) = 0) ∧
    (narrowAt [0x08] 0).Inv ∧ 4 < remainingBits (narrowAt [0x08] 0) ∧ (∀ j, j < 4 → (narrowAt [0x08] 0).BIT (0 + j) = 0) ∧
    (narrowAt [0x08] 0).BIT (0 + 4) = 1 ∧ remainingBits (narrowAt [0x08] 0) < 2 * 5 - 1 := by decide

theorem witness_ExpGolombFollowsItsFourSteps_complete :
    (narrowAt [0x08, 0x7F] 0).Inv ∧ (narrowAt [0x08, 0x7F] 0).FirstOneAfter 4 ∧
    2 * 5 - 1 ≤ remainingBits (narrowAt [0x08, 0x7F] 0) ∧ exceedsWidth (.finite 8) (2 * 5 - 1) = true ∧
    (narrowAt [0x1F] 0).Inv ∧ (narrowAt [0x1F] 0).FirstOneAfter 3 ∧ 2 * 4 - 1 ≤ remainingBits (narrowAt [0x1F] 0) ∧
    exceedsWidth (.finite 8) (2 * 4 - 1) = false := by
  unfold State.FirstOneAfter; decide

/-- No 1 left, nothing left, and a code cut off by one bit. -/
theorem witness_ExpGolombClosedForm :
    (narrowAt [0x00] 3).Inv ∧ (narrowAt [0x00] 3).NoOneRemains ∧ (narrowAt [] 0).NoOneRemains ∧
    (narrowAt [0x08] 0).Inv ∧ (narrowAt [0x08] 0).FirstOneAfter 4 ∧
    remainingBits (narrowAt [0x08] 0) < 2 * 5 - 1 := by
  unfold State.FirstOneAfter State.NoOneRemains; decide

/-- A complete code one bit too wide at W = 8. -/
theorem witness_ExpGolombClosedForm_tooWide :
    (narrowAt [0x08, 0x7F] 0).Inv ∧ (narrowAt [0x08, 0x7F] 0).FirstOneAfter 4 ∧
    2 * 5 - 1 ≤ remainingBits (narrowAt [0x08, 0x7F] 0) ∧ exceedsWidth (.finite 8) (2 * 5 - 1) = true := by
  unfold State.FirstOneAfter; decide

/-- The widest code that fits W = 8, its code even (suffix 7) or odd (suffix 0) (section 2.6). -/
theorem witness_ExpGolombClosedForm_fits :
    (narrowAt [0x1F] 0).Inv ∧ (narrowAt [0x1F] 0).FirstOneAfter 3 ∧ 2 * 4 - 1 ≤ remainingBits (narrowAt [0x1F] 0) ∧
    exceedsWidth (.finite 8) (2 * 4 - 1) = false ∧ (2 ^ 3 - 1 + 7) % 2 = 0 ∧ (2 ^ 3 - 1 + 0) % 2 = 1 := by
  unfold State.FirstOneAfter; decide

theorem witness_ExpGolombWordsAreTwo :
    (opField 0x7FFFFFFF).toNat = 0x7 ∧ (0x7FFFFFFF : Word) ≠ 0x70000000 ∧ (0x7FFFFFFF : Word) ≠ 0x70000001 := by decide

/-- k = 1, and the largest k that W = 8 admits. -/
theorem witness_ExpGolombResultsFitThePort :
    (narrowAt [0x80] 0).Inv ∧ (narrowAt [0x80] 0).FirstOneAfter 0 ∧ 2 * 1 - 1 ≤ remainingBits (narrowAt [0x80] 0) ∧
    exceedsWidth (.finite 8) (2 * 1 - 1) = false ∧
    (narrowAt [0x1F] 0).Inv ∧ (narrowAt [0x1F] 0).FirstOneAfter 3 ∧ 2 * 4 - 1 ≤ remainingBits (narrowAt [0x1F] 0) ∧
    exceedsWidth (.finite 8) (2 * 4 - 1) = false := by
  unfold State.FirstOneAfter; decide

theorem witness_SignMappingIsABijection : (6 % 2 = 0 ∧ 5 % 2 = 1) ∧ (0 : Int) < 1 ∧ (0 : Int) ≤ 0 := by decide

theorem witness_UnsignedAndSignedDecodesDifferOnlyInTheMapping : (narrowAt [0x1F] 0).Inv := by decide

theorem witness_DecodeLoopRunsOutOfData :
    (at64 [0x3F, 0x9D, 0x10] 0).Inv ∧ remainingBits (at64 [0x3F, 0x9D, 0x10] 0) ≤ 24 := by decide

theorem witness_EndOfStreamExactlyWhenBitsRunOut :
    (at64 [0xA5] 5).Inv ∧ isNext (exec (.readBits 4) (at64 [0xA5] 5)) ((at64 [0xA5] 5).answered 8 (.failed .endOfStream)) = true ∧
    isNext (exec (.readBits 3) (at64 [0xA5] 5)) ((at64 [0xA5] 5).answered 8 (.ok (.bits [1, 0, 1]))) = true := by decide

theorem witness_WidthOverflowExactlyWhenTheFoldIsTooWide :
    (narrowAt [0x08, 0x7F] 0).Inv ∧ exceedsWidth (narrowAt [0x08, 0x7F] 0).cfg.W 9 = true ∧
    (narrowAt [0x08, 0x7F] 0).FirstOneAfter 4 ∧ 2 * 4 + 1 ≤ remainingBits (narrowAt [0x08, 0x7F] 0) ∧
    exceedsWidth (narrowAt [0x08, 0x7F] 0).cfg.W (2 * 4 + 1) = true := by
  unfold State.FirstOneAfter; decide

theorem witness_FailuresAreDetectedInOrder :
    ReservedOpcode 0x00000000 ∧ exceedsWidth (narrowAt [] 0).cfg.W 9 = true ∧
    (narrowAt [0x04] 0).Inv ∧ (narrowAt [0x04] 0).FirstOneAfter 5 ∧ remainingBits (narrowAt [0x04] 0) < 2 * 5 + 1 := by
  unfold State.FirstOneAfter; decide

theorem witness_ExhaustedUnitFailsAgainUntilLoaded :
    (offered (narrowAt [0xA5] 8) [] [3]).Inv ∧ (offered (narrowAt [0xA5] 8) [] [3]).POS = 8 * (offered (narrowAt [0xA5] 8) [] [3]).LEN ∧
    1 ≤ narrow.CAP ∧ 1 ≤ (offered (narrowAt [0xA5] 8) [] [3]).dataIn.length ∧ exceedsWidth narrow.W 8 = false := by decide

theorem witness_ConsumedBitsAreNeverGivenBack :
    (narrowAt [0xA5] 5).Inv ∧ isCursorCommand (.readBits 4) = true ∧ isCursorCommand .remainingBits = true := by decide

/-- The seven commands, each with a next state; the frame speaks of every state. -/
theorem witness_ReadsOnlyAdvanceThePosition :
    [Instr.readBit, .readBits 3, .readUint 9, .readByte, .readBytes 1, .readExpGolomb true, .remainingBits].all
      (fun i => isCursorCommand i && goesOn (exec i (narrowAt [0xA5] 5))) = true := by decide

theorem witness_EveryCommandAnswersOnce :
    (offered (narrowAt [0xA5] 5) [] [1, 2]).Inv ∧ 2 ≤ (offered (narrowAt [0xA5] 5) [] [1, 2]).dataIn.length := by decide

/-- Two units that agree on W, LEN, POS and the byte below LEN, and differ in CAP, in the byte at LEN and at the port. -/
theorem witness_ResponsesDependOnTheCursorAlone :
    ({ narrowAt [0xA5, 1] 5 with LEN := 1 } : State).Inv ∧
    ({ loaded (.finite 8) [0xA5, 2] 5 with LEN := 1, cmdIn := [0] } : State).Inv ∧
    isCursorCommand .readByte = true ∧
    (∀ a, a < 1 → ({ narrowAt [0xA5, 1] 5 with LEN := 1 } : State).BUF.read a =
      ({ loaded (.finite 8) [0xA5, 2] 5 with LEN := 1, cmdIn := [0] } : State).BUF.read a) ∧
    ({ narrowAt [0xA5, 1] 5 with LEN := 1 } : State).BUF ≠
      ({ loaded (.finite 8) [0xA5, 2] 5 with LEN := 1, cmdIn := [0] } : State).BUF := by decide

/-- The last bit of a byte, and the end. -/
theorem witness_AbsoluteIndexRefinesDropOnAdvance : (at64 [0xA5, 0x4B] 7).Inv ∧ (at64 [0xA5, 0x4B] 16).Inv := by decide

theorem witness_ExhaustedIsOneCondition : (at64 [0xA5] 8).Inv ∧ (at64 [0xA5] 7).Inv := by decide

theorem witness_OnlyLoadAndResetEndAnInstance :
    goesOn (step (offered (narrowAt [0xA5] 5) [0x10000001] [1])) = true ∧
    goesOn (step (resetAsserted (narrowAt [0xA5] 5))) = true ∧
    goesOn (step (offered (narrowAt [0xA5] 5) [0x20000000] [])) = true := by decide

theorem witness_StepsOnlyConsumeThePort :
    goesOn (step (offered (narrowAt [0xA5] 5) [0x10000002, 0x20000000] [1])) = true := by decide

end Sys2Proof.Tests
end

/-! PROOFS of the family 10_state.md: the reset state, the invariant, exhaustion, what a command other than LOAD answers,
and the drop-on-advance cursor. -/

namespace Sys2Proof

/-! ## What the decoder lets through -/

theorem decodeNoOperand_ok {i j : Instr} {op : OpField} {arg : ArgField} (h : decodeNoOperand i op arg = .ok j) :
    j = i := by
  unfold decodeNoOperand at h
  split at h
  · exact (Except.ok.inj h).symm
  · cases h

theorem decodeFlag_ok {make : Bool → Instr} {op : OpField} {arg : ArgField} {j : Instr}
    (h : decodeFlag make op arg = .ok j) : j = make (arg.getLsbD 0) := by
  unfold decodeFlag at h
  split at h
  · exact (Except.ok.inj h).symm
  · cases h

theorem countFits_toNat (arg : ArgField) : countFits arg.toNat = true := decide_eq_true arg.isLt

/-- A decoded command can be written as a word: its count, if it has one, is an ARG field (30_encoding.md R54). -/
theorem wf_of_decode {c : Word} {i : Instr} (h : decode c = .ok i) : i.wf = true := by
  unfold decode at h
  dsimp only at h
  split at h
  case h_2 | h_5 | h_8 => rw [decodeNoOperand_ok h]; rfl
  case h_7 => rw [decodeFlag_ok h]; rfl
  case h_9 => cases h
  all_goals rw [← Except.ok.inj h]; exact countFits_toNat _

end Sys2Proof

namespace Sys2Proof.Machine

/-! ## Exhaustion and the remaining bits -/

section Exhaustion
variable {s : State}

theorem exhausted_iff : exhausted s = true ↔ 8 * s.LEN ≤ s.POS := decide_eq_true_iff

theorem remainingBits_eq_zero_iff : remainingBits s = 0 ↔ 8 * s.LEN ≤ s.POS := Nat.sub_eq_zero_iff_le

/-- No byte remains exactly when no bit does (10_state.md R18). -/
theorem State.REM_eq_nil_iff : s.REM = [] ↔ 8 * s.LEN ≤ s.POS := by
  simp only [State.REM, State.DROPPED, List.map_eq_nil_iff, List.range_eq_nil]
  omega

end Exhaustion

/-- Settles O50: each of the three conditions is `8 * LEN ≤ POS`, and the invariant has `POS ≤ 8 * LEN`. -/
theorem exhaustedIsOneCondition : Obligations.ExhaustedIsOneCondition := by
  intro s hs
  have hp := State.Inv_pos hs
  refine ⟨?_, ?_, ?_⟩
  · rw [exhausted_iff]; omega
  · rw [exhausted_iff, remainingBits_eq_zero_iff]
  · rw [exhausted_iff, State.REM_eq_nil_iff]

/-! ## The drop-on-advance cursor (10_state.md R16) -/

section DropOnAdvance
variable {s : State}

/-- While a bit remains, the first remaining byte is the one at DROPPED, and the others are those a cursor at the next
byte has. -/
theorem State.REM_eq_cons (h : s.POS < 8 * s.LEN) :
    s.REM = (s.BUF.read s.DROPPED).getD 0 :: (s.withPOS (8 * (s.DROPPED + 1))).REM := by
  obtain ⟨k, hk⟩ : ∃ k, s.LEN - s.POS / 8 = k + 1 := ⟨s.LEN - s.POS / 8 - 1, by omega⟩
  have hk' : s.LEN - (s.POS / 8 + 1) = k := by omega
  simp [State.REM, State.DROPPED, hk, hk', List.range_succ_eq_map, Function.comp_def, Nat.add_assoc, Nat.add_comm 1]

/-- REM depends on POS through DROPPED alone. -/
theorem State.REM_withPOS_of_div_eq {p q : Nat} (h : p / 8 = q / 8) : (s.withPOS p).REM = (s.withPOS q).REM := by
  simp [State.REM, State.DROPPED, h]

theorem State.dropView_nextBit_none (h : 8 * s.LEN ≤ s.POS) : s.dropView.nextBit = none := by
  simp [DropCursor.nextBit, State.dropView, State.REM_eq_nil_iff.2 h]

/-- Within a byte the advanced state has the same bytes left, and OFF counts on. -/
theorem State.dropView_advance_within (h : s.OFF + 1 ≠ 8) :
    (s.withPOS (s.POS + 1)).dropView = ⟨s.REM, s.OFF + 1⟩ := by
  simp only [State.OFF] at h
  have hrem := State.REM_withPOS_of_div_eq (s := s) (p := s.POS + 1) (q := s.POS) (by omega)
  have hoff : (s.POS + 1) % 8 = s.POS % 8 + 1 := by omega
  rw [State.withPOS_self s _ rfl] at hrem
  simp only [State.dropView, hrem, State.OFF, State.withPOS_POS, hoff]

/-- At the last bit of a byte the advanced state has dropped the byte, and OFF is 0. -/
theorem State.dropView_advance_drop (h : s.OFF + 1 = 8) :
    (s.withPOS (s.POS + 1)).dropView = ⟨(s.withPOS (8 * (s.DROPPED + 1))).REM, 0⟩ := by
  simp only [State.OFF] at h
  have hrem := State.REM_withPOS_of_div_eq (s := s) (p := s.POS + 1) (q := 8 * (s.DROPPED + 1))
    (by simp only [State.DROPPED]; omega)
  have hoff : (s.POS + 1) % 8 = 0 := by omega
  simp only [State.dropView, hrem, State.OFF, State.withPOS_POS, hoff]

/-- The document's primitive reads the bit at POS and leads to the view of the advanced state
(40_cursor_primitive.md R72). -/
theorem State.dropView_nextBit_some (h : s.POS < 8 * s.LEN) :
    s.dropView.nextBit = some (s.BIT s.POS, (s.withPOS (s.POS + 1)).dropView) := by
  have hrem := State.REM_eq_cons h
  by_cases hoff : s.OFF + 1 = 8
  · rw [State.dropView_advance_drop hoff]
    simp only [DropCursor.nextBit, State.dropView, hrem, if_pos hoff]; rfl
  · rw [State.dropView_advance_within hoff]
    simp only [DropCursor.nextBit, State.dropView, hrem, if_neg hoff]; rfl

theorem State.dropView_remainingBits (s : State) : s.dropView.remainingBits = remainingBits s := by
  simp only [DropCursor.remainingBits, State.dropView, State.REM, State.OFF, State.DROPPED, List.length_map,
    List.length_range, remainingBits]
  omega

end DropOnAdvance

/-- Settles O49: both primitives fail at exhaustion, and else read the bit at POS and lead to corresponding states. -/
theorem absoluteIndexRefinesDropOnAdvance : Obligations.AbsoluteIndexRefinesDropOnAdvance := by
  intro s hs
  refine ⟨Nat.mod_lt _ (by decide), (Nat.div_add_mod s.POS 8).symm, s.dropView_remainingBits, ?_⟩
  rcases Nat.lt_or_ge s.POS (8 * s.LEN) with h | h
  · exact .inr ⟨_, _, nextBit_got (State.Inv_loaded hs) h, State.dropView_nextBit_some h⟩
  · exact .inl ⟨nextBit_exhausted h, State.dropView_nextBit_none h⟩

/-! ## What a command other than LOAD answers -/

/-- The closed forms of the commands other than LOAD: command `i` takes `m` bits and answers `r` (30_encoding.md R60,
60_exceptions.md R131, R132). `exec_of_answers` and `exists_answers` tie it to `exec`. -/
inductive State.Answers (s : State) : Instr → Nat → Response → Prop where
  | readBit (h : 1 ≤ remainingBits s) : s.Answers .readBit 1 (.ok (.bit (s.BIT s.POS)))
  | readBits {n : Nat} (h : n ≤ remainingBits s) : s.Answers (.readBits n) n (.ok (.bits (s.group s.POS n)))
  | readUint {n : Nat} (hw : exceedsWidth s.cfg.W n = false) (h : n ≤ remainingBits s) :
    s.Answers (.readUint n) n (.ok (.result (unsignedResult s.cfg.W (fold (s.group s.POS n)))))
  | readUintTooWide {n : Nat} (hw : exceedsWidth s.cfg.W n = true) :
    s.Answers (.readUint n) 0 (.failed .widthOverflow)
  | readByte (h : 8 ≤ remainingBits s) : s.Answers .readByte 8 (.ok (.byte (byteOfBits (s.group s.POS 8))))
  | readBytes {n : Nat} (h : 8 * n ≤ remainingBits s) :
    s.Answers (.readBytes n) (8 * n)
      (.ok (.bytes ((List.range n).map fun j => byteOfBits (s.group (s.POS + 8 * j) 8))))
  | readExpGolomb {signed : Bool} {z : Nat} (hz : s.FirstOneAfter z) (h : 2 * z + 1 ≤ remainingBits s)
      (hw : exceedsWidth s.cfg.W (2 * z + 1) = false) :
    s.Answers (.readExpGolomb signed) (2 * z + 1)
      (.ok (.result (expGolombResult s.cfg.W signed (fold (s.group s.POS (2 * z + 1)) - 1))))
  | readExpGolombTooWide {signed : Bool} {z : Nat} (hz : s.FirstOneAfter z) (h : 2 * z + 1 ≤ remainingBits s)
      (hw : exceedsWidth s.cfg.W (2 * z + 1) = true) :
    s.Answers (.readExpGolomb signed) (2 * z + 1) (.failed .widthOverflow)
  | remainingBits : s.Answers .remainingBits 0 (.ok (.count (countResult (remainingBits s))))
  | endOfStream {i : Instr} (h : NeedsMoreThanRemains i s) :
    s.Answers i (Machine.remainingBits s) (.failed .endOfStream)

section Answers
variable {s : State} {i : Instr} {m : Nat} {r : Response}

/-- A command that needs more bits than remain consumes them all and answers END_OF_STREAM (60_exceptions.md R131). -/
theorem exec_endOfStream (hs : s.Inv) (h : NeedsMoreThanRemains i s) :
    exec i s = .next (s.answered (8 * s.LEN) (.failed .endOfStream)) := by
  have hl := State.Inv_loaded hs
  have hp := State.Inv_pos hs
  have hr := State.pos_add_remaining hs
  cases i with
  | load n => exact h.elim
  | readBit =>
    have h : remainingBits s = 0 := h
    rw [exec, execReadBit, nextBit_exhausted (by omega), State.answered, State.withPOS_self s _ (by omega)]; rfl
  | readBits n =>
    have h : remainingBits s < n := h
    rw [exec, execReadBits, takeBits_short hl hp (by omega)]; rfl
  | readUint n =>
    obtain ⟨hw, h⟩ := h
    rw [exec, execReadUint, hw, takeBits_short hl hp (by omega)]; rfl
  | readByte =>
    have h : remainingBits s < 8 := h
    rw [exec, execReadByte, takeByte_short hl hp (by omega)]; rfl
  | readBytes n =>
    have h : remainingBits s < 8 * n := h
    rw [exec, execReadBytes, takeBytes_short hl hp (by omega)]; rfl
  | readExpGolomb signed =>
    rcases h with h | ⟨z, hz, h⟩
    · rw [exec, execReadExpGolomb, takeWorkingSequence_none hl hp h]; rfl
    · rw [exec, execReadExpGolomb, takeWorkingSequence_short hl hz h]; rfl
  | remainingBits => exact h.elim

/-- The closed forms are what the commands do. -/
theorem exec_of_answers (hs : s.Inv) (h : s.Answers i m r) : exec i s = .next (s.answered (s.POS + m) r) := by
  have hl := State.Inv_loaded hs
  have hr := State.pos_add_remaining hs
  cases h with
  | readBit h => rw [exec, execReadBit, nextBit_got hl (by omega)]; rfl
  | readBits h => rw [exec, execReadBits, takeBits_got hl (by omega)]; rfl
  | readUint hw h => rw [exec, execReadUint, hw, takeBits_got hl (by omega)]; rfl
  | readUintTooWide hw => rw [exec, execReadUint, hw]; rfl
  | readByte h => rw [exec, execReadByte, takeByte_got hl (by omega)]; rfl
  | readBytes h => rw [exec, execReadBytes, takeBytes_got hl (by omega)]; rfl
  | readExpGolomb hz h hw =>
    simp [exec, execReadExpGolomb, takeWorkingSequence_got hl hz h, decodeExpGolomb, hw, State.answered]
  | readExpGolombTooWide hz h hw =>
    simp [exec, execReadExpGolomb, takeWorkingSequence_got hl hz h, decodeExpGolomb, hw, State.answered]
  | remainingBits => rfl
  | endOfStream h => rw [exec_endOfStream hs h, hr]

/-- Every command other than LOAD has a closed form in every state. -/
theorem exists_answers (s : State) (hi : isCursorCommand i = true) : ∃ m r, s.Answers i m r := by
  by_cases hshort : NeedsMoreThanRemains i s
  · exact ⟨_, _, .endOfStream hshort⟩
  cases i with
  | load n => cases hi
  | readBit => exact ⟨_, _, .readBit (Nat.pos_of_ne_zero hshort)⟩
  | readBits n => exact ⟨_, _, .readBits (Nat.le_of_not_lt hshort)⟩
  | readUint n =>
    cases hw : exceedsWidth s.cfg.W n with
    | true => exact ⟨_, _, .readUintTooWide hw⟩
    | false => exact ⟨_, _, .readUint hw (Nat.le_of_not_lt fun h => hshort ⟨hw, h⟩)⟩
  | readByte => exact ⟨_, _, .readByte (Nat.le_of_not_lt hshort)⟩
  | readBytes n => exact ⟨_, _, .readBytes (Nat.le_of_not_lt hshort)⟩
  | readExpGolomb signed =>
    rcases s.firstOne_cases with hnone | ⟨z, hz⟩
    · exact absurd (.inl hnone) hshort
    have hle : 2 * z + 1 ≤ remainingBits s := Nat.le_of_not_lt fun h => hshort (.inr ⟨z, hz, h⟩)
    cases hw : exceedsWidth s.cfg.W (2 * z + 1) with
    | true => exact ⟨_, _, .readExpGolombTooWide hz hle hw⟩
    | false => exact ⟨_, _, .readExpGolomb hz hle hw⟩
  | remainingBits => exact ⟨_, _, .remainingBits⟩

/-- No command takes more bits than remain. -/
theorem State.Answers.le_remaining (h : s.Answers i m r) : m ≤ Machine.remainingBits s := by
  cases h with
  | readUintTooWide | remainingBits => exact Nat.zero_le _
  | endOfStream => exact le_rfl
  | _ => assumption

/-- END_OF_STREAM is answered with every remaining bit consumed (40_cursor_primitive.md R80). -/
theorem State.Answers.eq_remaining (h : s.Answers i m (.failed .endOfStream)) : m = Machine.remainingBits s := by
  cases h; rfl

/-- A command that needs more bits than remain takes all of them, by the table of 70_reset_and_hazards.md R158. -/
theorem takesBits_of_needsMore (h : NeedsMoreThanRemains i s) : TakesBits i s (remainingBits s) := by
  cases i with
  | load n => exact h.elim
  | readBit => exact h.trans (by rw [h]; rfl)
  | readBits n => exact (Nat.min_eq_right (Nat.le_of_lt h)).symm
  | readUint n =>
    obtain ⟨hw, h⟩ := h
    simp only [TakesBits, hw, Bool.false_eq_true, if_false]
    omega
  | readByte => exact (Nat.min_eq_right (Nat.le_of_lt h)).symm
  | readBytes n => exact (Nat.min_eq_right (Nat.le_of_lt h)).symm
  | readExpGolomb signed =>
    rcases h with hnone | ⟨z, hz, h⟩
    · exact .inr ⟨hnone, rfl⟩
    · exact .inl ⟨z, hz, by omega⟩
  | remainingBits => exact h.elim

/-- The closed forms take the bits of the table of 70_reset_and_hazards.md R158. -/
theorem State.Answers.takesBits (h : s.Answers i m r) : TakesBits i s m := by
  cases h with
  | readBit h => exact (Nat.min_eq_left h).symm
  | readBits h => exact (Nat.min_eq_left h).symm
  | readUint hw h => simp [TakesBits, hw, h]
  | readUintTooWide hw => simp [TakesBits, hw]
  | readByte h => exact (Nat.min_eq_left h).symm
  | readBytes h => exact (Nat.min_eq_left h).symm
  | readExpGolomb hz h hw => exact .inl ⟨_, hz, by omega⟩
  | readExpGolombTooWide hz h hw => exact .inl ⟨_, hz, by omega⟩
  | remainingBits => rfl
  | endOfStream h => exact takesBits_of_needsMore h

end Answers

/-- Settles O45: the bits of the closed form are those of R158's table and are at most the remaining ones. -/
theorem consumedBitsAreNeverGivenBack : Obligations.ConsumedBitsAreNeverGivenBack := by
  intro s i hs hi
  obtain ⟨m, r, h⟩ := exists_answers s hi
  have hle := h.le_remaining
  have hpos := State.pos_add_remaining hs
  have hrem : remainingBits (s.answered (s.POS + m) r) = 8 * s.LEN - (s.POS + m) := rfl
  refine ⟨_, m, exec_of_answers hs h, h.takesBits, rfl, rfl, by omega, fun heos => ?_⟩
  obtain rfl : r = .failed .endOfStream := by simpa [State.answered] using heos
  have := h.eq_remaining
  omega

/-! ## Two units with the same cursor -/

/-- The two units have the same result width and the same cursor: LEN, POS and the bytes below LEN. -/
structure State.SameCursor (s t : State) : Prop where
  width : t.cfg.W = s.cfg.W
  len : t.LEN = s.LEN
  pos : t.POS = s.POS
  bytes : ∀ a, a < s.LEN → t.BUF.read a = s.BUF.read a

namespace State.SameCursor
variable {s t : State}

theorem remainingBits_eq (h : s.SameCursor t) : remainingBits t = remainingBits s := by
  simp only [remainingBits, h.len, h.pos]

theorem BIT_eq (h : s.SameCursor t) {j : Nat} (hj : j < remainingBits s) : t.BIT (s.POS + j) = s.BIT (s.POS + j) := by
  simp only [remainingBits] at hj
  simp only [State.BIT, h.bytes _ (by omega : (s.POS + j) / 8 < s.LEN)]

theorem group_eq (h : s.SameCursor t) {j n : Nat} (hn : j + n ≤ remainingBits s) :
    t.group (s.POS + j) n = s.group (s.POS + j) n := by
  refine List.map_congr_left fun i hi => ?_
  have hi : i < n := List.mem_range.1 hi
  rw [Nat.add_assoc]
  exact h.BIT_eq (by omega)

theorem bytes_eq (h : s.SameCursor t) {n : Nat} (hn : 8 * n ≤ remainingBits s) :
    ((List.range n).map fun j => byteOfBits (s.group (s.POS + 8 * j) 8)) =
      (List.range n).map fun j => byteOfBits (t.group (t.POS + 8 * j) 8) := by
  refine List.map_congr_left fun j hj => ?_
  have hj : j < n := List.mem_range.1 hj
  rw [h.pos, h.group_eq (by omega)]

theorem noOneRemains (h : s.SameCursor t) (hs : s.NoOneRemains) : t.NoOneRemains := by
  intro j hj
  rw [h.remainingBits_eq] at hj
  rw [h.pos, h.BIT_eq hj, hs j hj]

theorem firstOneAfter {z : Nat} (h : s.SameCursor t) (hs : s.FirstOneAfter z) : t.FirstOneAfter z := by
  obtain ⟨hr, h1, h0⟩ := hs
  refine ⟨h.remainingBits_eq ▸ hr, ?_, fun j hj => ?_⟩
  · rw [h.pos, h.BIT_eq hr, h1]
  · rw [h.pos, h.BIT_eq (hj.trans hr), h0 j hj]

theorem needsMoreThanRemains {i : Instr} (h : s.SameCursor t) (hs : NeedsMoreThanRemains i s) :
    NeedsMoreThanRemains i t := by
  cases i with
  | readExpGolomb signed =>
    rcases hs with hnone | ⟨z, hz, hlt⟩
    · exact .inl (h.noOneRemains hnone)
    · exact .inr ⟨z, h.firstOneAfter hz, h.remainingBits_eq ▸ hlt⟩
  | load n => exact hs.elim
  | remainingBits => exact hs.elim
  | _ => simpa only [NeedsMoreThanRemains, h.remainingBits_eq, h.width] using hs

/-- The closed forms speak of the result width and the cursor alone. -/
theorem answers {i : Instr} {m : Nat} {r : Response} (h : s.SameCursor t) (hs : s.Answers i m r) : t.Answers i m r := by
  have hr := h.remainingBits_eq
  have hW := h.width
  have hgroup : ∀ n, n ≤ remainingBits s → s.group s.POS n = t.group t.POS n := fun n hn => by
    rw [h.pos]; exact (h.group_eq (j := 0) (by omega)).symm
  cases hs with
  | readBit hm =>
    have hbit : s.BIT s.POS = t.BIT t.POS := by rw [h.pos]; exact (h.BIT_eq (j := 0) hm).symm
    rw [hbit]; exact .readBit (by omega)
  | readBits hm => rw [hgroup _ hm]; exact .readBits (by omega)
  | readUint hw hm => rw [hgroup _ hm, ← hW]; exact .readUint (hW ▸ hw) (by omega)
  | readUintTooWide hw => exact .readUintTooWide (hW ▸ hw)
  | readByte hm => rw [hgroup _ hm]; exact .readByte (by omega)
  | readBytes hm => rw [h.bytes_eq hm]; exact .readBytes (by omega)
  | readExpGolomb hz hm hw =>
    rw [hgroup _ hm, ← hW]; exact .readExpGolomb (h.firstOneAfter hz) (by omega) (hW ▸ hw)
  | readExpGolombTooWide hz hm hw =>
    exact .readExpGolombTooWide (h.firstOneAfter hz) (by omega) (hW ▸ hw)
  | remainingBits => rw [← hr]; exact .remainingBits
  | endOfStream hm => rw [← hr]; exact .endOfStream (h.needsMoreThanRemains hm)

end State.SameCursor

/-- Settles O48: the closed form of the one unit is that of the other. -/
theorem responsesDependOnTheCursorAlone : Obligations.ResponsesDependOnTheCursorAlone := by
  intro s t i hs ht hi hW hlen hpos hbytes
  obtain ⟨m, r, h⟩ := exists_answers s hi
  have hsame : s.SameCursor t := ⟨hW, hlen, hpos, hbytes⟩
  exact ⟨_, r, exec_of_answers hs h, hpos ▸ exec_of_answers ht (hsame.answers h)⟩

/-! ## LOAD -/

theorem exists_load_of_not_isCursorCommand {i : Instr} (h : ¬ isCursorCommand i = true) : ∃ n, i = .load n := by
  cases i with
  | load n => exact ⟨n, rfl⟩
  | _ => exact absurd rfl h

theorem exec_load (n : Nat) (s : State) : exec (.load n) s = takePayload ⟨n, []⟩ s := rfl

/-- Settles O1: a LOAD of no bytes needs no payload, is within every capacity, and writes nothing. -/
theorem resetStateIsTheEmptyCursor : Obligations.ResetStateIsTheEmptyCursor := by
  intro c
  have hload : exec (.load 0) (State.resetWith c) = .next ((State.resetWith c).deliver (.ok .empty)) := by
    rw [exec_load]
    rcases takePayload_cases ⟨0, []⟩ (State.resetWith c) with ⟨hlt, -⟩ | ⟨-, h⟩
    · exact absurd hlt (Nat.not_lt_zero _)
    · rw [h, completeLoad_eq, if_neg (Nat.not_lt_zero _)]; rfl
  exact ⟨rfl, rfl, rfl, rfl, rfl, rfl, hload⟩

/-! ## What a step is, by what the unit takes from the port (30_encoding.md R63) -/

section Step
variable {s : State}

theorem step_reset {t : State} (h : fetch s = .reset t) : step s = .next t.resetEvent := by rw [step, h]; rfl

theorem step_resume {p : LoadProgress} (h : fetch s = .resume p) : step s = takePayload p s := by rw [step, h]

theorem step_idle (h : fetch s = .idle) : step s = .next s := by rw [step, h]; rfl

theorem step_command {c : Word} {t : State} {i : Instr} (h : fetch s = .word c t) (hc : decode c = .ok i) :
    step s = exec i t := by rw [step, h]; dsimp only; rw [hc]

theorem step_illegalWord {c : Word} {t : State} {e : DecodeError} (h : fetch s = .word c t) (hc : decode c = .error e) :
    step s = .next (t.deliver (.failed .illegal)) := by rw [step, h]; dsimp only; rw [hc]; rfl

end Step

/-- An outcome is at most one next state. -/
theorem next_unique {o : Host.Outcome State Fault Refusal} {t u : State} (ht : o = .next t) (hu : o = .next u) :
    t = u := by
  rw [ht] at hu
  injection hu

/-! ## The invariant, update by update -/

section Keeps
variable {s t : State}

/-- The invariant speaks of the parameters, the buffer, LEN, POS and the command in progress alone, and a smaller LEN
asks less. -/
theorem State.Inv_of_le (hs : s.Inv) (hcfg : t.cfg = s.cfg) (hbuf : t.BUF = s.BUF) (hlen : t.LEN ≤ s.LEN)
    (hpos : t.POS ≤ 8 * t.LEN) (hprog : t.progressOpen) : t.Inv := by
  obtain ⟨hlegal, hwf, hloaded, hcap, hle, -, -⟩ := hs
  refine ⟨hcfg ▸ hlegal, hbuf ▸ hwf, fun a ha => hbuf ▸ hloaded a (by omega), ?_, hcfg ▸ hlen.trans hle, hpos, hprog⟩
  simpa only [State.bufferInCapacity, hcfg, hbuf] using hcap

/-- Taking words or payload and delivering responses keep the invariant. -/
theorem State.Inv_of_same_cursor (hs : s.Inv) (hcfg : t.cfg = s.cfg) (hbuf : t.BUF = s.BUF) (hlen : t.LEN = s.LEN)
    (hpos : t.POS = s.POS) (hprog : t.progressOpen) : t.Inv :=
  State.Inv_of_le hs hcfg hbuf hlen.le (by rw [hlen, hpos]; exact State.Inv_pos hs) hprog

theorem State.progressOpen_none (h : s.inProgress = none) : s.progressOpen := by
  intro p hp
  rw [h] at hp
  cases hp

theorem State.Inv_deliver (hs : s.Inv) (r : Response) : (s.deliver r).Inv :=
  State.Inv_of_same_cursor hs rfl rfl rfl rfl (State.Inv_progress hs)

theorem State.Inv_setCommands (hs : s.Inv) (ws : List Word) : (s.setCommands ws).Inv :=
  State.Inv_of_same_cursor hs rfl rfl rfl rfl (State.Inv_progress hs)

/-- A read command that advances POS within the data keeps the invariant (10_state.md R22 b). -/
theorem State.Inv_answered (hs : s.Inv) {p : Nat} (hp : p ≤ 8 * s.LEN) (r : Response) : (s.answered p r).Inv :=
  State.Inv_of_le hs rfl rfl le_rfl hp (State.Inv_progress (s := s) hs)

/-- The reset event keeps the invariant, whatever a command it cuts has taken (70_reset_and_hazards.md R150, R151). -/
theorem State.Inv_resetEvent (hs : s.Inv) (hcfg : t.cfg = s.cfg) (hbuf : t.BUF = s.BUF) : t.resetEvent.Inv :=
  State.Inv_of_le hs hcfg hbuf (Nat.zero_le _) (Nat.zero_le _) (State.progressOpen_none rfl)

/-- A cursor constructed over as many bytes as it says, no more than CAP, meets the invariant (10_state.md R22 d). -/
theorem State.Inv_construct (hs : s.Inv) {n : Nat} {bytes : List Byte} (hlen : bytes.length = n) (hn : n ≤ s.cfg.CAP) :
    (s.construct n bytes).Inv := by
  refine ⟨State.Inv_legal (s := s) hs, Memory.wf_writeFrom (State.Inv_memory hs) 0, fun a ha => ?_, fun c hc => ?_, hn,
    Nat.zero_le _, State.Inv_progress (s := s) hs⟩
  · have ha : 0 ≤ a ∧ a < 0 + bytes.length := by simp at ha; omega
    rw [State.construct_BUF, Memory.read_writeFrom, dif_pos ha]; rfl
  · show c.1 < s.cfg.CAP
    rcases Memory.mem_writeFrom hc with ⟨-, hlt⟩ | hmem
    · omega
    · exact State.Inv_inCapacity hs c hmem

theorem completeLoad_keeps_Inv {n : Nat} {bytes : List Byte} (hs : s.Inv) (hlen : bytes.length = n)
    (h : completeLoad n bytes s = .next t) : t.Inv := by
  rw [← next_unique (completeLoad_eq n bytes s) h]
  split
  case isTrue hbig => exact State.Inv_deliver hs _
  case isFalse hfits => exact State.Inv_deliver (State.Inv_construct hs hlen (Nat.le_of_not_lt hfits)) _

/-- Taking payload keeps the invariant, the LOAD completing or waiting on (30_encoding.md R58). -/
theorem takePayload_keeps_Inv {p : LoadProgress} (hs : s.Inv) (hcount : p.count < 2 ^ 28)
    (htaken : p.taken.length ≤ p.count) (h : takePayload p s = .next t) : t.Inv := by
  rcases takePayload_cases p s with ⟨hwait, heq⟩ | ⟨hall, heq⟩
  · obtain rfl := next_unique heq h
    refine State.Inv_of_same_cursor hs rfl rfl rfl rfl fun q hq => ?_
    obtain rfl : ⟨p.count, p.taken ++ s.dataIn⟩ = q := by simpa using hq
    exact ⟨hcount, by simpa using hwait⟩
  · rw [heq] at h
    have hs' : ((s.takeData (p.count - p.taken.length)).setProgress none).Inv :=
      State.Inv_of_same_cursor hs rfl rfl rfl rfl (State.progressOpen_none rfl)
    exact completeLoad_keeps_Inv hs' (by simp; omega) h

/-- Every well-formed command keeps the invariant. -/
theorem exec_keeps_Inv {i : Instr} (hs : s.Inv) (hi : i.wf = true) (h : exec i s = .next t) : t.Inv := by
  by_cases hcur : isCursorCommand i = true
  case pos =>
    obtain ⟨m, r, hans⟩ := exists_answers s hcur
    have hle := hans.le_remaining
    have hpos := State.pos_add_remaining hs
    obtain rfl := next_unique (exec_of_answers hs hans) h
    exact State.Inv_answered hs (by omega) r
  case neg =>
    obtain ⟨n, rfl⟩ := exists_load_of_not_isCursorCommand hcur
    exact takePayload_keeps_Inv (p := ⟨n, []⟩) hs (of_decide_eq_true hi) (Nat.zero_le _) h

end Keeps

/-- Settles O6, by cases of what the unit takes from the port. -/
theorem stepKeepsTheInvariant : Obligations.StepKeepsTheInvariant := by
  intro s t hs h
  by_cases hrst : s.resetIn = .released
  case neg =>
    obtain ⟨u, hf, hcfg, hbuf, -⟩ := fetch_reset hrst
    exact next_unique (step_reset hf) h ▸ State.Inv_resetEvent hs hcfg hbuf
  cases hp : s.inProgress with
  | some p =>
    obtain ⟨hcount, htaken⟩ := State.Inv_progress hs p hp
    rw [step_resume (fetch_resume hrst hp)] at h
    exact takePayload_keeps_Inv hs hcount htaken.le h
  | none =>
    cases hc : s.cmdIn with
    | nil => exact next_unique (step_idle (fetch_idle hrst hp hc)) h ▸ hs
    | cons c rest =>
      have hs' : (s.setCommands rest).Inv := State.Inv_setCommands hs rest
      have hf := fetch_word hrst hp hc
      cases hd : decode c with
      | error e => exact next_unique (step_illegalWord hf hd) h ▸ State.Inv_deliver hs' _
      | ok i =>
        rw [step_command hf hd] at h
        exact exec_keeps_Inv hs' (wf_of_decode hd) h

end Sys2Proof.Machine

/-! PROOFS of the family 20_memory.md: the frame of the commands other than LOAD, in every state. -/

namespace Sys2Proof.Machine

section Frame
variable {s t : State}

/-- REMAINING_BITS is a query: it delivers the count and nothing else (40_cursor_primitive.md R79). -/
theorem exec_remainingBits (s : State) :
    exec .remainingBits s = .next (s.deliver (.ok (.count (countResult (remainingBits s))))) := rfl

/-- A command that reads and answers with a payload formed from what was read has advanced POS and delivered one
response. -/
theorem finish_read_next {α : Type} {x : Taken α} {payload : α → State → Payload} (hx : x.onlyAdvances s)
    (h : (x.andThen fun v u => .got (payload v u) u).finish = .next t) : ∃ p r, s.POS ≤ p ∧ t = s.answered p r :=
  Taken.finish_next (Taken.onlyAdvances_andThen hx fun _ u => Taken.onlyAdvances_got _ u) h

/-- READ_UINT answers WIDTH_OVERFLOW where POS stands, or reads bits and answers (41_multibit_readers.md R94, R96). -/
theorem execReadUint_next {n : Nat} (h : execReadUint n s = .next t) : ∃ p r, s.POS ≤ p ∧ t = s.answered p r := by
  unfold execReadUint at h
  split at h
  case isTrue => exact Taken.finish_next (x := .failed .widthOverflow s) s.advancesTo_refl h
  case isFalse => exact finish_read_next (takeBits_onlyAdvances n s) h

/-- A command other than LOAD, in any state, advances POS and delivers one response (20_memory.md R38). With the invariant
`exec_of_answers` says which. -/
theorem exec_next_answered {i : Instr} (hi : isCursorCommand i = true) (h : exec i s = .next t) :
    ∃ p r, s.POS ≤ p ∧ t = s.answered p r := by
  cases i with
  | load n => cases hi
  | readBit => exact finish_read_next (nextBit_onlyAdvances s) h
  | readBits n => exact finish_read_next (takeBits_onlyAdvances n s) h
  | readUint n => exact execReadUint_next h
  | readByte => exact finish_read_next (takeByte_onlyAdvances s) h
  | readBytes n => exact finish_read_next (takeBytes_onlyAdvances n s) h
  | readExpGolomb signed =>
    exact Taken.finish_next
      (Taken.onlyAdvances_andThen (takeWorkingSequence_onlyAdvances s) (decodeExpGolomb_onlyAdvances signed)) h
  | remainingBits => exact ⟨s.POS, _, le_rfl, (next_unique (exec_remainingBits s) h).symm⟩

end Frame

/-- Settles O46: the next state is the state answered, which differs from it in POS and the responses alone. -/
theorem readsOnlyAdvanceThePosition : Obligations.ReadsOnlyAdvanceThePosition := by
  intro s t i hi h
  have hquery : i = .remainingBits → t.POS = s.POS := by
    rintro rfl
    rw [← next_unique (exec_remainingBits s) h, State.deliver_POS]
  obtain ⟨p, r, hp, rfl⟩ := exec_next_answered hi h
  exact ⟨rfl, rfl, rfl, rfl, rfl, rfl, rfl, hp, fun _ => rfl, ⟨r, rfl⟩, hquery⟩

end Sys2Proof.Machine

/-! PROOFS of the family 30_encoding.md: decoding and encoding are inverse, the reserved words, the opcode table, and the
one response of every command. -/

namespace Sys2Proof

/-! ## Fields of a word (30_encoding.md R51, R52) -/

@[simp] theorem opField_encode (i : Instr) : opField (encode i) = opcodeOf i := opField_commandWord _ _

@[simp] theorem argField_encode (i : Instr) : argField (encode i) = operandOf i := argField_commandWord _ _

/-- Two words are the same when their fields are. -/
theorem word_eq_iff {c d : Word} : c = d ↔ opField c = opField d ∧ argField c = argField d := by
  refine ⟨fun h => h ▸ ⟨rfl, rfl⟩, fun ⟨hop, harg⟩ => ?_⟩
  rw [← commandWord_fields c, hop, harg, commandWord_fields]

/-- A word with the code value and the operand of a command is the word of that command. -/
theorem encode_eq_of_fields {c : Word} {i : Instr} (hop : (opField c).toNat = (opcodeOf i).toNat)
    (harg : argField c = operandOf i) : encode i = c := by
  rw [word_eq_iff, opField_encode, argField_encode]
  exact ⟨BitVec.eq_of_toNat_eq hop.symm, harg.symm⟩

/-- ARG[27:1], which a flag operand leaves zero (30_encoding.md R52), as a number. -/
theorem flagBits_eq_zero_iff (arg : ArgField) : arg.extractLsb' 1 27 = 0 ↔ arg.toNat / 2 = 0 := by
  have := arg.isLt
  simp only [← BitVec.toNat_inj, BitVec.extractLsb'_toNat, Nat.shiftRight_eq_div_pow, BitVec.ofNat_eq_ofNat,
    BitVec.toNat_ofNat]
  omega

/-- ARG[27:1] is zero exactly when ARG is 0 or 1. -/
theorem arg_div_two_eq_zero_iff (arg : ArgField) : arg.toNat / 2 = 0 ↔ arg = 0 ∨ arg = 1 := by
  simp only [← BitVec.toNat_inj, BitVec.ofNat_eq_ofNat, BitVec.toNat_ofNat]
  omega

/-! ## Decoding an encoded command -/

/-- The decoder reads an encoded command back. -/
theorem decode_encode {i : Instr} (h : i.wf = true) : decode (encode i) = .ok i := by
  simp only [decode, opField_encode, argField_encode]
  cases i with
  | load n => exact congrArg (fun k => Except.ok (Instr.load k)) (Laws.EncodeFields.toNat_count h)
  | readBits n => exact congrArg (fun k => Except.ok (Instr.readBits k)) (Laws.EncodeFields.toNat_count h)
  | readUint n => exact congrArg (fun k => Except.ok (Instr.readUint k)) (Laws.EncodeFields.toNat_count h)
  | readBytes n => exact congrArg (fun k => Except.ok (Instr.readBytes k)) (Laws.EncodeFields.toNat_count h)
  | readBit | readByte | remainingBits => rfl
  | readExpGolomb signed => cases signed <;> rfl

/-- Settles O13: OP holds the code value and ARG the operand, and the decoder's arm of that code value reads it back. -/
theorem decodingAnEncodedCommandGivesItBack : Obligations.DecodingAnEncodedCommandGivesItBack :=
  fun _ h => decode_encode h

end Sys2Proof

namespace Sys2Proof.Machine

/-! ## The reserved words (30_encoding.md R55 to R57) -/

theorem decodeNoOperand_error {i : Instr} {op : OpField} {arg : ArgField} (h : arg.toNat ≠ 0) :
    decodeNoOperand i op arg = .error (.reservedArgument op arg) :=
  if_neg fun h0 => h (congrArg BitVec.toNat h0)

theorem decodeFlag_error {make : Bool → Instr} {op : OpField} {arg : ArgField} (h : arg.toNat / 2 ≠ 0) :
    decodeFlag make op arg = .error (.reservedArgument op arg) :=
  if_neg fun h0 => h ((flagBits_eq_zero_iff arg).1 h0)

section Reserved
variable {c : Word}

/-- The decoder rejects every reserved word (30_encoding.md R55, R56). -/
theorem exists_decode_error_of_reserved (h : ReservedOpcode c ∨ ReservedArgument c) : ∃ e, decode c = .error e := by
  unfold decode
  dsimp only
  split
  case h_2 | h_5 | h_8 => exact ⟨_, decodeNoOperand_error (by omega)⟩
  case h_7 => exact ⟨_, decodeFlag_error (by omega)⟩
  case h_9 => exact ⟨_, rfl⟩
  all_goals omega

/-- Every word that is not reserved is the word of a command. -/
theorem exists_encode_of_not_reserved (h : ¬ (ReservedOpcode c ∨ ReservedArgument c)) :
    ∃ i, i.wf = true ∧ encode i = c := by
  have hcount : argField c = BitVec.ofNat 28 (argField c).toNat := by simp
  have hfits := countFits_toNat (argField c)
  have hnone : (argField c).toNat = 0 → argField c = 0 := fun h0 => BitVec.eq_of_toNat_eq h0
  have hcases : (opField c).toNat = 1 ∨ ((opField c).toNat = 2 ∧ (argField c).toNat = 0) ∨ (opField c).toNat = 3 ∨
      (opField c).toNat = 4 ∨ ((opField c).toNat = 5 ∧ (argField c).toNat = 0) ∨ (opField c).toNat = 6 ∨
      ((opField c).toNat = 7 ∧ (argField c).toNat / 2 = 0) ∨ ((opField c).toNat = 8 ∧ (argField c).toNat = 0) := by
    omega
  rcases hcases with hop | ⟨hop, ha⟩ | hop | hop | ⟨hop, ha⟩ | hop | ⟨hop, ha⟩ | ⟨hop, ha⟩
  · exact ⟨.load _, hfits, encode_eq_of_fields hop hcount⟩
  · exact ⟨.readBit, rfl, encode_eq_of_fields hop (hnone ha)⟩
  · exact ⟨.readBits _, hfits, encode_eq_of_fields hop hcount⟩
  · exact ⟨.readUint _, hfits, encode_eq_of_fields hop hcount⟩
  · exact ⟨.readByte, rfl, encode_eq_of_fields hop (hnone ha)⟩
  · exact ⟨.readBytes _, hfits, encode_eq_of_fields hop hcount⟩
  · rcases (arg_div_two_eq_zero_iff _).1 ha with h0 | h1
    · exact ⟨.readExpGolomb false, rfl, encode_eq_of_fields hop h0⟩
    · exact ⟨.readExpGolomb true, rfl, encode_eq_of_fields hop h1⟩
  · exact ⟨.remainingBits, rfl, encode_eq_of_fields hop (hnone ha)⟩

/-- The decoder rejects the reserved words and no other (30_encoding.md R57). -/
theorem exists_decode_ok_iff : (∃ i, decode c = .ok i) ↔ ¬ (ReservedOpcode c ∨ ReservedArgument c) := by
  constructor
  · rintro ⟨i, hi⟩ hres
    obtain ⟨e, he⟩ := exists_decode_error_of_reserved hres
    rw [hi] at he
    cases he
  · intro h
    obtain ⟨i, hwf, rfl⟩ := exists_encode_of_not_reserved h
    exact ⟨i, decode_encode hwf⟩

/-- A word that decodes is the word of the command it decodes to. -/
theorem encode_of_decode {i : Instr} (h : decode c = .ok i) : encode i = c := by
  obtain ⟨j, hwf, rfl⟩ := exists_encode_of_not_reserved (exists_decode_ok_iff.1 ⟨i, h⟩)
  rw [decode_encode hwf] at h
  rw [Except.ok.inj h]

/-- A reserved word executes as Illegal (30_encoding.md R55, R56). -/
theorem executesAsIllegal_of_reserved (h : ReservedOpcode c ∨ ReservedArgument c) : ExecutesAsIllegal c := by
  intro s rest hreset hprogress hcmd
  obtain ⟨e, he⟩ := exists_decode_error_of_reserved h
  exact step_illegalWord (fetch_word hreset hprogress hcmd) he

end Reserved

/-- Settles O14: a word that is not reserved is the word of some command, which decoding gives back. -/
theorem encodingADecodedWordGivesItBack : Obligations.EncodingADecodedWordGivesItBack :=
  fun _ _ h => ⟨wf_of_decode h, encode_of_decode h⟩

/-- Settles O15: the decoder rejects exactly the reserved words, and a rejected word executes as Illegal. -/
theorem reservedWordsExecuteAsIllegal : Obligations.ReservedWordsExecuteAsIllegal :=
  ⟨fun _ => executesAsIllegal_of_reserved, fun _ => exists_decode_ok_iff⟩

/-- Settles O36: with OP = 7, a word that is neither of the two has ARG[27:1] nonzero. -/
theorem expGolombWordsAreTwo : Obligations.ExpGolombWordsAreTwo := by
  refine ⟨by decide, by decide, by decide, by decide, fun c hop h0 h1 => ?_⟩
  refine executesAsIllegal_of_reserved (.inr (.inr ⟨hop, fun hflag => ?_⟩))
  rcases (arg_div_two_eq_zero_iff _).1 hflag with harg | harg
  · exact h0 (encode_eq_of_fields (i := .readExpGolomb false) hop harg).symm
  · exact h1 (encode_eq_of_fields (i := .readExpGolomb true) hop harg).symm

/-! ## The opcode table (spec/opcode_table.json) -/

/-- ARG agrees with zero under the mask 0xFFFFFFE exactly when ARG[27:1] is zero. -/
theorem and_flagMask_iff (arg : ArgField) : arg &&& 0xFFFFFFE = 0 ↔ arg.toNat / 2 = 0 := by
  constructor
  · intro h
    have hbits := congrArg (BitVec.extractLsb' 1 27) h
    rw [BitVec.extractLsb'_and, show BitVec.extractLsb' 1 27 (0xFFFFFFE : ArgField) = BitVec.allOnes 27 from rfl,
      BitVec.and_allOnes] at hbits
    exact (flagBits_eq_zero_iff arg).1 hbits
  · intro h
    rcases (arg_div_two_eq_zero_iff arg).1 h with rfl | rfl <;> rfl

/-- The rows have the three operand uses of 30_encoding.md R52: a count, no operand, a flag. -/
theorem operandUse_of_mem_opcodeTable : ∀ r ∈ opcodeTable,
    (argField r.mask = 0 ∧ (opField r.pattern).toNat ∈ [1, 3, 4, 6]) ∨
    (argField r.mask = BitVec.allOnes 28 ∧ (opField r.pattern).toNat ∈ [2, 5, 8]) ∨
    (argField r.mask = 0xFFFFFFE ∧ (opField r.pattern).toNat = 7) := by
  decide

/-- Every row masks the whole of OP, and its pattern has ARG = 0. -/
theorem fields_of_mem_opcodeTable :
    ∀ r ∈ opcodeTable, opField r.mask = BitVec.allOnes 4 ∧ argField r.pattern = 0 := by
  decide

/-- The code values of the rows are those that are not reserved (30_encoding.md R55). -/
theorem exists_row_iff (op : OpField) :
    (∃ r ∈ opcodeTable, opField r.pattern = op) ↔ ¬ (op.toNat = 0x0 ∨ 0x9 ≤ op.toNat) := by
  revert op
  decide

section Table
variable {r : OpcodeRow} {c : Word}

/-- A row compares the whole of OP, and ARG against zero where its mask has ones. -/
theorem accepts_iff_fields (hr : r ∈ opcodeTable) :
    r.accepts c = true ↔ opField c = opField r.pattern ∧ argField c &&& argField r.mask = 0 := by
  obtain ⟨hmask, hpattern⟩ := fields_of_mem_opcodeTable r hr
  rw [OpcodeRow.accepts, beq_iff_eq, word_eq_iff, hpattern]
  simp only [opField, argField, BitVec.extractLsb'_and] at hmask ⊢
  rw [hmask, BitVec.and_allOnes]

/-- A row's mask on ARG has ones at the operand bits that must be zero (30_encoding.md R56). -/
theorem and_argMask_eq_zero_iff (hr : r ∈ opcodeTable) (hop : opField c = opField r.pattern) :
    argField c &&& argField r.mask = 0 ↔ ¬ ReservedArgument c := by
  have huse := operandUse_of_mem_opcodeTable r hr
  simp only [List.mem_cons, List.not_mem_nil, or_false, ← hop] at huse
  rcases huse with ⟨harg, hcount⟩ | ⟨harg, hnone⟩ | ⟨harg, hflag⟩
  · rw [harg]
    simp only [BitVec.ofNat_eq_ofNat, BitVec.and_zero, true_iff]
    omega
  · have hzero : argField c = 0 ↔ (argField c).toNat = 0 := BitVec.toNat_inj.symm
    rw [harg, BitVec.and_allOnes, hzero]
    omega
  · rw [harg, and_flagMask_iff]
    omega

/-- A row accepts the words of its code value whose operand is not reserved. -/
theorem accepts_iff (hr : r ∈ opcodeTable) :
    r.accepts c = true ↔ opField c = opField r.pattern ∧ ¬ ReservedArgument c := by
  rw [accepts_iff_fields hr]
  exact and_congr_right (and_argMask_eq_zero_iff hr)

/-- The rows and the commands pair code values and mnemonics alike. -/
theorem opcode_eq_iff_mnemonic_eq (hr : r ∈ opcodeTable) (i : Instr) :
    opcodeOf i = opField r.pattern ↔ r.mnemonic = i.mnemonic := by
  revert r
  cases i <;> simp only [opcodeOf, Instr.mnemonic] <;> decide

end Table

/-- Settles O16: a row accepts a word by its OP and by ARG not being reserved; the rows have the assigned code values, and
the code value of a command is that of the row of its mnemonic. -/
theorem decoderAgreesWithTheOpcodeTable : Obligations.DecoderAgreesWithTheOpcodeTable := by
  refine ⟨fun c => ?_, fun c i hdec r hr => ?_⟩
  · rw [exists_decode_ok_iff, not_or, ReservedOpcode, ← exists_row_iff]
    constructor
    · rintro ⟨⟨r, hr, hop⟩, harg⟩
      exact ⟨r, hr, (accepts_iff hr).2 ⟨hop.symm, harg⟩⟩
    · rintro ⟨r, hr, hacc⟩
      obtain ⟨hop, harg⟩ := (accepts_iff hr).1 hacc
      exact ⟨⟨r, hr, hop.symm⟩, harg⟩
  · have harg : ¬ ReservedArgument c := fun h => exists_decode_ok_iff.1 ⟨i, hdec⟩ (.inr h)
    rw [accepts_iff hr, and_iff_left harg, ← encode_of_decode hdec, opField_encode]
    exact opcode_eq_iff_mnemonic_eq hr i

/-! ## The one response of a command (30_encoding.md R60) -/

theorem Response.payload_ne_none_iff (r : Response) : r.payload ≠ none ↔ r.status = .ok := by
  cases r with
  | ok p => exact iff_of_true (Option.some_ne_none p) rfl
  | failed f => cases f <;> simp [Response.payload, Response.status, Failure.status]

theorem unsignedResult_onPort (W : Width) (v : Nat) : (unsignedResult W v).onPort W = true := by
  cases W with
  | finite w => exact beq_self_eq_true w
  | inf => rfl

theorem signedResult_onPort (W : Width) (v : Int) : (signedResult W v).onPort W = true := by
  cases W with
  | finite w => exact beq_self_eq_true w
  | inf => rfl

theorem expGolombResult_onPort (W : Width) (signed : Bool) (code : Nat) :
    (expGolombResult W signed code).onPort W = true := by
  cases signed with
  | true => exact signedResult_onPort W _
  | false => exact unsignedResult_onPort W _

theorem unsignedResult_unsignedValue_nonneg (W : Width) (v : Nat) : 0 ≤ (unsignedResult W v).unsignedValue := by
  cases W <;> exact Int.natCast_nonneg _

/-- Cutting a value to the port's W bits never makes it larger. -/
theorem unsignedResult_unsignedValue_le (W : Width) (v : Nat) : (unsignedResult W v).unsignedValue ≤ v := by
  cases W with
  | finite w => exact Int.ofNat_le.2 ((BitVec.toNat_ofNat ..).trans_le (Nat.mod_le _ _))
  | inf => exact le_rfl

/-- What READ_UINT answers is below `2^n` (41_multibit_readers.md R94). -/
theorem unsignedResult_fold_lt (W : Width) {bs : List Bit} {n : Nat} (hn : bs.length = n) :
    (unsignedResult W (fold bs)).unsignedValue < 2 ^ n := by
  subst hn
  exact (unsignedResult_unsignedValue_le W _).trans_lt (by exact_mod_cast fold_lt bs)

/-- The payload of a closed form is of the command's form. -/
theorem State.Answers.payloadForm {s : State} {i : Instr} {m : Nat} {r : Response} {p : Payload} (h : s.Answers i m r)
    (hp : r.payload = some p) : PayloadForm i s.cfg.W p := by
  cases h with
  | readUintTooWide | readExpGolombTooWide | endOfStream => cases hp
  | readBit => exact ⟨_, (Option.some.inj hp).symm⟩
  | readBits => exact ⟨_, (Option.some.inj hp).symm, s.length_group _ _⟩
  | readUint =>
    exact ⟨_, (Option.some.inj hp).symm, unsignedResult_onPort _ _, unsignedResult_unsignedValue_nonneg _ _,
      unsignedResult_fold_lt _ (s.length_group _ _)⟩
  | readByte => exact ⟨_, (Option.some.inj hp).symm⟩
  | readBytes => exact ⟨_, (Option.some.inj hp).symm, by simp⟩
  | readExpGolomb => exact ⟨_, (Option.some.inj hp).symm, expGolombResult_onPort _ _ _⟩
  | remainingBits => exact ⟨_, (Option.some.inj hp).symm⟩

/-- LOAD with its payload there takes it and ends, with ILLEGAL above the capacity and with OK else
(40_cursor_primitive.md R70, 30_encoding.md R59). -/
theorem exec_load_of_payload {s : State} {n : Nat} (h : n ≤ s.dataIn.length) :
    exec (.load n) s = .next (if s.cfg.CAP < n then ((s.takeData n).setProgress none).deliver (.failed .illegal)
      else (((s.takeData n).setProgress none).construct n (s.dataIn.take n)).deliver (.ok .empty)) := by
  rw [exec_load]
  rcases takePayload_cases ⟨n, []⟩ s with ⟨hlt, -⟩ | ⟨-, heq⟩
  · exact absurd hlt (by simpa using h)
  · exact heq.trans (completeLoad_eq ..)

/-- Settles O47: by the closed forms of the commands other than LOAD, and by the two ends of a LOAD. -/
theorem everyCommandAnswersOnce : Obligations.EveryCommandAnswersOnce := by
  intro s i hs hdata
  by_cases hi : isCursorCommand i = true
  case pos =>
    obtain ⟨m, r, h⟩ := exists_answers s hi
    exact ⟨_, r, exec_of_answers hs h, rfl, r.payload_ne_none_iff, fun _ hp => h.payloadForm hp⟩
  case neg =>
    obtain ⟨n, rfl⟩ := exists_load_of_not_isCursorCommand hi
    rw [exec_load_of_payload (hdata n rfl)]
    split
    case isTrue => exact ⟨_, .failed .illegal, rfl, rfl, Response.payload_ne_none_iff _, fun p hp => by cases hp⟩
    case isFalse =>
      exact ⟨_, .ok .empty, rfl, rfl, Response.payload_ne_none_iff _, fun p hp => (Option.some.inj hp).symm⟩

end Sys2Proof.Machine

/-! PROOFS of the family 40_cursor_primitive.md: LOAD with its payload there, the bit primitive, READ_BIT and the query
REMAINING_BITS. -/

namespace Sys2Proof

/-- The word of a command with a count carries the count below its code value (30_encoding.md R50, R52, R54). -/
theorem commandWord_count {op : OpField} {base n : Nat} (hbase : op.toNat * 2 ^ 28 = base) (h : n < 2 ^ 28) :
    commandWord op (BitVec.ofNat 28 n) = BitVec.ofNat 32 (base + n) := by
  rw [commandWord, Laws.EncodeFields.toNat_count (decide_eq_true h), hbase]

end Sys2Proof

namespace Sys2Proof.Machine

/-- A read inside a payload written from address 0 on gives the payload's byte. -/
theorem Memory.read_writeFrom_zero {bs : List Byte} {a : Nat} (m : Memory) (h : a < bs.length) :
    (m.writeFrom 0 bs).read a = bs[a]? := by
  rw [Memory.read_writeFrom, dif_pos (by omega), List.getElem?_eq_getElem h]; rfl

/-- Settles O19: with its payload there a LOAD ends at once, and the bytes written from index 0 on are the payload's. -/
theorem loadBuildsACursorOrIsIllegal : Obligations.LoadBuildsACursorOrIsIllegal := by
  refine ⟨fun n hn => ⟨commandWord_count (op := 0x1) (by decide) hn, decode_encode (decide_eq_true hn)⟩,
    fun s n hdata => ⟨?_, ?_⟩⟩
  · intro hbig
    rw [exec_load_of_payload hdata, if_pos hbig]; rfl
  · intro hfits
    refine ⟨s.BUF.writeFrom 0 (s.dataIn.take n), ?_, fun a ha => ?_⟩
    · rw [exec_load_of_payload hdata, if_neg (Nat.not_lt.2 hfits)]; rfl
    · have hlen : a < (s.dataIn.take n).length := by rw [List.length_take]; omega
      rw [Memory.read_writeFrom_zero _ hlen, List.getElem?_take_of_lt ha]

section Bits
variable {s : State}

/-- The stream bit at an index whose byte is loaded (20_memory.md R32). -/
theorem State.BIT_of_read {i : Nat} {B : Byte} (h : s.BUF.read (i / 8) = some B) :
    s.BIT i = B.extractLsb' (7 - i % 8) 1 := by
  rw [State.BIT, h]; rfl

/-- The byte that holds the bit at an index below the end of the data is loaded (10_state.md R22 d). -/
theorem State.bufferLoaded.exists_read (hl : s.bufferLoaded) {i : Nat} (h : i < 8 * s.LEN) :
    ∃ B, s.BUF.read (i / 8) = some B :=
  Option.isSome_iff_exists.1 (hl (i / 8) (by omega))

/-- A command that leaves POS where it is has only delivered its response. -/
theorem State.answered_same {p : Nat} (h : s.POS = p) (r : Response) : s.answered p r = s.deliver r := by
  rw [State.answered, State.withPOS_self s p h]

/-- The remaining-bit count fits its 32-bit payload, LEN being at most CAP (40_cursor_primitive.md R78). -/
theorem remainingBits_lt (hs : s.Inv) : remainingBits s < 2 ^ 32 := by
  have hlen := State.Inv_len hs
  have hcap := Config.capacity_of_legal (State.Inv_legal hs)
  simp only [remainingBits]
  omega

/-- The port form of the count is the count itself. -/
theorem countResult_remainingBits_toNat (hs : s.Inv) : (countResult (remainingBits s)).toNat = remainingBits s :=
  (BitVec.toNat_ofNat ..).trans (Nat.mod_eq_of_lt (remainingBits_lt hs))

end Bits

/-- Settles O23: the exhaustion check comes first, and below the end of the data the byte read is loaded. -/
theorem nextBitReadsOrFails : Obligations.NextBitReadsOrFails := by
  intro s hs
  refine ⟨fun hend => nextBit_exhausted hend.ge, fun hne => ?_⟩
  have hl := State.Inv_loaded hs
  have hlt : s.POS < 8 * s.LEN := lt_of_le_of_ne (State.Inv_pos hs) hne
  obtain ⟨B, hB⟩ := State.bufferLoaded.exists_read hl hlt
  exact ⟨B, hB, by rw [nextBit_got hl hlt, State.BIT_of_read hB]; rfl⟩

/-- Settles O24: READ_BIT answers the next bit while one remains, and else END_OF_STREAM with POS where it stands. -/
theorem readBitReturnsTheNextBit : Obligations.ReadBitReturnsTheNextBit := by
  refine ⟨rfl, decode_encode (i := .readBit) rfl,
    fun c hop harg => executesAsIllegal_of_reserved (.inr (.inl ⟨.inl hop, harg⟩)),
    fun s hs => ⟨fun hlt => ?_, fun hend => ?_⟩⟩
  · exact exec_of_answers hs (.readBit (Nat.sub_pos_of_lt hlt))
  · have hnone : NeedsMoreThanRemains .readBit s := remainingBits_eq_zero_iff.2 hend.ge
    rw [exec_endOfStream hs hnone, State.answered_same hend]

/-- Settles O29: the count delivered is `remainingBits`, which 32 bits hold. -/
theorem remainingBitsIsAPureQuery : Obligations.RemainingBitsIsAPureQuery :=
  ⟨rfl, decode_encode (i := .remainingBits) rfl,
    fun _ hop harg => executesAsIllegal_of_reserved (.inr (.inl ⟨.inr (.inr hop), harg⟩)),
    fun s hs => ⟨_, countResult_remainingBits_toNat hs, exec_remainingBits s⟩⟩

end Sys2Proof.Machine

/-! PROOFS of the family 41_multibit_readers.md: READ_BITS, READ_UINT, READ_BYTE and READ_BYTES. -/

namespace Sys2Proof.Machine

/-! ## READ_BITS -/

/-- Settles O25: the closed form of READ_BITS while `n` bits remain, END_OF_STREAM else, and no call of NextBit at
`n = 0`. -/
theorem readBitsReturnsTheGroup : Obligations.ReadBitsReturnsTheGroup :=
  ⟨fun _ hn => ⟨commandWord_count (op := 0x3) (by decide) hn, decode_encode (decide_eq_true hn)⟩, fun _ => rfl,
    fun _ _ hs => ⟨fun h => exec_of_answers hs (.readBits h), fun h => exec_endOfStream (i := .readBits _) hs h⟩⟩

/-! ## READ_UINT -/

theorem exceedsWidth_finite_iff (w n : Nat) : exceedsWidth (.finite w) n = true ↔ w < n := decide_eq_true_iff

/-- A value of `n` bits that passes the width check is on the port as it is (30_encoding.md R62). -/
theorem unsignedResult_unsignedValue_eq {W : Width} {n v : Nat} (hw : exceedsWidth W n = false) (hv : v < 2 ^ n) :
    (unsignedResult W v).unsignedValue = v := by
  cases W with
  | inf => rfl
  | finite w =>
    have hn : n ≤ w := Nat.not_lt.1 (of_decide_eq_false hw)
    have hvw : v < 2 ^ w := hv.trans_le (Nat.pow_le_pow_right (by decide) hn)
    exact congrArg Nat.cast ((BitVec.toNat_ofNat ..).trans (Nat.mod_eq_of_lt hvw))

section ReadUint
variable {s : State} {n : Nat}

/-- The width check of READ_UINT comes before any bit is read, in every state (41_multibit_readers.md R96). -/
theorem exec_readUint_tooWide (hw : exceedsWidth s.cfg.W n = true) :
    exec (.readUint n) s = .next (s.deliver (.failed .widthOverflow)) := by
  rw [exec, execReadUint, if_pos hw]; rfl

/-- READ_UINT answers the big-endian value of the group (41_multibit_readers.md R94, 20_memory.md R34). -/
theorem exec_readUint_groupValue (hs : s.Inv) (hw : exceedsWidth s.cfg.W n = false) (h : n ≤ remainingBits s) :
    exec (.readUint n) s =
      .next (s.answered (s.POS + n) (.ok (.result (unsignedResult s.cfg.W (s.groupValue s.POS n))))) := by
  rw [← State.fold_group]
  exact exec_of_answers hs (.readUint hw h)

end ReadUint

/-- Settles O26: the value is `groupValue`, which is below `2^n` and so passes the port unchanged. -/
theorem readUintFoldsTheGroup : Obligations.ReadUintFoldsTheGroup := by
  refine ⟨fun n hn => ⟨commandWord_count (op := 0x4) (by decide) hn, decode_encode (decide_eq_true hn)⟩,
    fun s n => exec_readUint_tooWide, exceedsWidth_finite_iff, fun _ => rfl, fun s n hs hw => ⟨fun h => ?_, fun h => ?_⟩⟩
  · have hlt := s.groupValue_lt s.POS n
    exact ⟨s.groupValue s.POS n, rfl, hlt, exec_readUint_groupValue hs hw h, unsignedResult_unsignedValue_eq hw hlt⟩
  · exact exec_endOfStream (i := .readUint n) hs ⟨hw, h⟩

/-! ## Bytes -/

/-- A byte is the sum of its bits in stream order (20_memory.md R31, R34). -/
theorem sum_bitOfByte (B : Byte) : ∑ i ∈ Finset.range 8, (bitOfByte B i).toNat * 2 ^ (7 - i) = B.toNat := by
  have := B.isLt
  simp only [Finset.sum_range_succ, Finset.sum_range_zero, bitOfByte_toNat]
  omega

/-- The byte of eight stream bits has their value (41_multibit_readers.md R97). -/
theorem byteOfBits_group_toNat (s : State) (p : Nat) : (byteOfBits (s.group p 8)).toNat = s.groupValue p 8 := by
  rw [byteOfBits, BitVec.toNat_ofNat, State.fold_group, Nat.mod_eq_of_lt (s.groupValue_lt p 8)]

/-- The aligned group of eight bits is the byte of the buffer (20_memory.md R34). -/
theorem State.groupValue_aligned {s : State} {j : Nat} {B : Byte} (h : s.BUF.read j = some B) :
    s.groupValue (8 * j) 8 = B.toNat := by
  rw [State.groupValue, ← sum_bitOfByte B]
  refine Finset.sum_congr rfl fun i hi => ?_
  have hi := Finset.mem_range.1 hi
  have hdiv : (8 * j + i) / 8 = j := by omega
  have hmod : (8 * j + i) % 8 = i := by omega
  rw [State.BIT, hdiv, hmod, h, Option.getD_some]

theorem byteOfBits_group_aligned {s : State} {j : Nat} {B : Byte} (h : s.BUF.read j = some B) :
    byteOfBits (s.group (8 * j) 8) = B :=
  BitVec.eq_of_toNat_eq ((byteOfBits_group_toNat s _).trans (State.groupValue_aligned h))

/-- Settles O27: READ_BYTE and READ_UINT 8 fold the same eight bits, and an aligned group of eight is a loaded byte. -/
theorem readByteFoldsEightBits : Obligations.ReadByteFoldsEightBits := by
  refine ⟨rfl, decode_encode (i := .readByte) rfl,
    fun c hop harg => executesAsIllegal_of_reserved (.inr (.inl ⟨.inr (.inl hop), harg⟩)), fun s hs => ?_⟩
  have hw : exceedsWidth s.cfg.W 8 = false := Config.width_of_legal (State.Inv_legal hs) le_rfl
  refine ⟨fun h => ⟨byteOfBits (s.group s.POS 8), byteOfBits_group_toNat s _, fun j hj => ?_,
    exec_of_answers hs (.readByte h), ?_⟩, fun h => ⟨?_, ?_⟩⟩
  · have hr := State.pos_add_remaining hs
    obtain ⟨B, hB⟩ := Option.isSome_iff_exists.1 (State.Inv_loaded hs j (by omega))
    rw [hj, byteOfBits_group_aligned hB, hB]
  · rw [byteOfBits_group_toNat]
    exact exec_readUint_groupValue hs hw h
  · exact exec_endOfStream (i := .readByte) hs h
  · exact exec_endOfStream (i := .readUint 8) hs ⟨hw, h⟩

/-- Settles O28: the bytes are those of the closed form, each the value of its group. -/
theorem readBytesReturnsTheBytes : Obligations.ReadBytesReturnsTheBytes := by
  refine ⟨fun n hn => ⟨commandWord_count (op := 0x6) (by decide) hn, decode_encode (decide_eq_true hn)⟩, fun _ => rfl,
    fun s n hs => ⟨fun h => ⟨_, ?_, fun j hj => ?_, exec_of_answers hs (.readBytes h)⟩,
      fun h => exec_endOfStream (i := .readBytes n) hs h⟩⟩
  · rw [List.length_map, List.length_range]
  · rw [List.getElem_map, List.getElem_range]
    exact byteOfBits_group_toNat s _

end Sys2Proof.Machine

/-! PROOFS of the family 42_exp_golomb.md: the four steps of READ_EXP_GOLOMB, READ_UE beside READ_SE, and the decode
loop. -/

namespace Sys2Proof.Machine

/-! ## The code and its sign mapping (42_exp_golomb.md R114, R115) -/

/-- A working sequence folds to at least the power of two its first 1 stands for, so `Fold(seq) - 1` never goes below
zero (42_exp_golomb.md R110, step 3). -/
theorem State.FirstOneAfter.two_pow_le_fold {s : State} {z : Nat} (hz : s.FirstOneAfter z) :
    2 ^ z ≤ fold (s.group s.POS (2 * z + 1)) := by
  obtain ⟨-, h1, -⟩ := hz
  have hlen : 2 * z + 1 = z + (z + 1) := by omega
  rw [hlen, State.group_add, fold_append, State.group_succ, fold_cons, h1, State.length_group]
  exact le_add_left (le_add_right (Nat.one_mul _).ge)

theorem signMap_of_even {code : Nat} (h : code % 2 = 0) : signMap code = -((code / 2 : Nat) : Int) := if_pos h

theorem signMap_of_odd {code : Nat} (h : code % 2 = 1) : signMap code = (((code + 1) / 2 : Nat) : Int) :=
  if_neg (by omega)

/-- Settles O34: the closed forms of READ_EXP_GOLOMB, where the code is `Fold(seq) - 1` and `Fold(seq)` is positive. -/
theorem expGolombFollowsItsFourSteps : Obligations.ExpGolombFollowsItsFourSteps := by
  refine ⟨fun signed => ⟨by cases signed <;> decide, decode_encode (i := .readExpGolomb signed) rfl⟩,
    fun c hop harg => executesAsIllegal_of_reserved (.inr (.inr ⟨hop, harg⟩)), fun s signed hs =>
      ⟨fun hnone => exec_endOfStream (i := .readExpGolomb signed) hs (.inl hnone), ?_⟩⟩
  rintro z k hr h0 h1 rfl
  have hz : s.FirstOneAfter z := ⟨hr, h1, h0⟩
  have hk : 2 * (z + 1) - 1 = 2 * z + 1 := by omega
  rw [hk]
  refine ⟨fun hshort => exec_endOfStream (i := .readExpGolomb signed) hs (.inr ⟨z, hz, hshort⟩),
    fun hle hw => exec_of_answers hs (.readExpGolombTooWide hz hle hw), fun hle hw => ?_⟩
  have hfold : 1 ≤ fold (s.group s.POS (2 * z + 1)) := Nat.one_le_two_pow.trans hz.two_pow_le_fold
  have hexec := exec_of_answers hs (.readExpGolomb (signed := signed) hz hle hw)
  refine ⟨_, _, rfl, Int.natCast_pred_of_pos hfold, ?_, ?_⟩
  · rintro rfl
    exact hexec
  · rintro rfl
    exact ⟨_, signMap_of_even, signMap_of_odd, hexec⟩

/-- Settles O39: READ_UE and READ_SE have the same closed form but for the mapping of the code. -/
theorem unsignedAndSignedDecodesDifferOnlyInTheMapping :
    Obligations.UnsignedAndSignedDecodesDifferOnlyInTheMapping := by
  intro s hs
  obtain ⟨m, r, h⟩ := exists_answers s (i := .readExpGolomb false) rfl
  cases h with
  | readExpGolomb hz hle hw =>
    exact .inl ⟨_, _, exec_of_answers hs (.readExpGolomb hz hle hw), exec_of_answers hs (.readExpGolomb hz hle hw)⟩
  | readExpGolombTooWide hz hle hw =>
    exact .inr ⟨_, _, exec_of_answers hs (.readExpGolombTooWide hz hle hw),
      exec_of_answers hs (.readExpGolombTooWide hz hle hw)⟩
  | endOfStream hmore =>
    exact .inr ⟨_, _, exec_endOfStream (i := .readExpGolomb false) hs hmore,
      exec_endOfStream (i := .readExpGolomb true) hs hmore⟩

/-! ## The decode loop (42_exp_golomb.md R119, R122) -/

theorem execAll_cons {i : Instr} {is : List Instr} {s t : State} (h : exec i s = .next t) :
    execAll (i :: is) s = execAll is t := by
  rw [execAll, h]

section DecodeLoop
variable {s : State} {signed : Bool}

/-- A decode that does not run out of data takes at least one bit (42_exp_golomb.md R119). -/
theorem State.Answers.expGolomb_progress {m : Nat} {r : Response} (h : s.Answers (.readExpGolomb signed) m r) :
    r = .failed .endOfStream ∨ 1 ≤ m := by
  cases h with
  | readExpGolomb | readExpGolombTooWide => exact .inr (Nat.le_add_left ..)
  | endOfStream => exact .inl rfl

/-- With no bit left a decode answers END_OF_STREAM and moves nothing (60_exceptions.md R139). -/
theorem exec_expGolomb_exhausted (hs : s.Inv) (h : s.POS = 8 * s.LEN) :
    exec (.readExpGolomb signed) s = .next (s.deliver (.failed .endOfStream)) := by
  have hrem : remainingBits s = 0 := remainingBits_eq_zero_iff.2 h.ge
  have hnone : s.NoOneRemains := fun j hj => by omega
  rw [exec_endOfStream (i := .readExpGolomb signed) hs (.inl hnone), State.answered_same h]

/-- One turn of the loop: the decode keeps the invariant, runs out of data or advances, and leaves fewer bits, or none
(42_exp_golomb.md R119). -/
theorem exec_expGolomb_turn (signed : Bool) (hs : s.Inv) :
    ∃ t, exec (.readExpGolomb signed) s = .next t ∧ t.Inv ∧
      (t.responses = s.responses ++ [.failed .endOfStream] ∨ s.POS < t.POS) ∧
      remainingBits t ≤ remainingBits s - 1 := by
  obtain ⟨m, r, h⟩ := exists_answers s (i := .readExpGolomb signed) rfl
  have hle := h.le_remaining
  have hpos := State.pos_add_remaining hs
  have hrem : remainingBits (s.answered (s.POS + m) r) = 8 * s.LEN - (s.POS + m) := rfl
  refine ⟨_, exec_of_answers hs h, State.Inv_answered hs (by omega) r, ?_⟩
  rcases h.expGolomb_progress with rfl | hm
  · have hall := h.eq_remaining
    exact ⟨.inl rfl, by omega⟩
  · exact ⟨.inr (Nat.lt_add_of_pos_right hm), by omega⟩

/-- As many decodes as bits remain exhaust the unit (42_exp_golomb.md R122). -/
theorem execAll_expGolomb_exhausts (signed : Bool) {n : Nat} (hs : s.Inv) (h : remainingBits s ≤ n) :
    ∃ t, execAll (List.replicate n (.readExpGolomb signed)) s = .next t ∧ t.Inv ∧ t.POS = 8 * t.LEN := by
  induction n generalizing s with
  | zero =>
    have hpos := State.pos_add_remaining hs
    exact ⟨s, rfl, hs, by omega⟩
  | succ n ih =>
    obtain ⟨t, ht, hinv, -, hless⟩ := exec_expGolomb_turn signed hs
    rw [List.replicate_succ, execAll_cons ht]
    exact ih hinv (by omega)

end DecodeLoop

/-- Settles O40: each turn leaves fewer bits or none, and an exhausted unit answers END_OF_STREAM to every decode. -/
theorem decodeLoopRunsOutOfData : Obligations.DecodeLoopRunsOutOfData := by
  intro s signed hs
  constructor
  · obtain ⟨t, ht, -, hturn, -⟩ := exec_expGolomb_turn signed hs
    exact ⟨t, ht, hturn⟩
  · intro n hn
    obtain ⟨t, ht, hinv, hend⟩ := execAll_expGolomb_exhausts signed hs hn
    exact ⟨t, ht, hend, exec_expGolomb_exhausted hinv hend⟩

end Sys2Proof.Machine

/-! PROOFS of the family 60_exceptions.md: which failure is answered when, the order of detection, the exhausted unit, and
the idle unit. -/

namespace Sys2Proof.Machine

/-- Settles O10: with nothing presented there is nothing to fetch. -/
theorem idleUnitHoldsItsState : Obligations.IdleUnitHoldsItsState :=
  fun _ hreset hprogress hcmd => step_idle (fetch_idle hreset hprogress hcmd)

/-! ## Which failure a command answers -/

section Failures
variable {s : State} {i : Instr} {m : Nat} {r : Response}

theorem State.answered_responses_iff {p : Nat} {r' : Response} :
    (s.answered p r).responses = s.responses ++ [r'] ↔ r = r' := by
  simp [State.answered]

/-- In a state that meets the invariant a command has one answer. -/
theorem State.Answers.response_unique {m' : Nat} {r' : Response} (hs : s.Inv) (h : s.Answers i m r)
    (h' : s.Answers i m' r') : r = r' :=
  State.answered_responses_iff.1 (congrArg State.responses (next_unique (exec_of_answers hs h) (exec_of_answers hs h')))

/-- Only one number of zeros stands before the first 1 (42_exp_golomb.md R121). -/
theorem State.FirstOneAfter.unique {y z : Nat} (hy : s.FirstOneAfter y) (hz : s.FirstOneAfter z) : y = z := by
  obtain ⟨-, hy1, hy0⟩ := hy
  obtain ⟨-, hz1, hz0⟩ := hz
  have hbit : (0 : Bit) ≠ 1 := by decide
  rcases Nat.lt_trichotomy y z with hlt | heq | hgt
  · exact absurd ((hz0 y hlt).symm.trans hy1) hbit
  · exact heq
  · exact absurd ((hy0 z hgt).symm.trans hz1) hbit

/-- The commands other than LOAD never answer ILLEGAL (60_exceptions.md R133). -/
theorem State.Answers.ne_illegal (h : s.Answers i m r) : r ≠ .failed .illegal := by
  rintro rfl
  cases h

/-- The two causes of WIDTH_OVERFLOW, each with the bits it consumes (60_exceptions.md R132). -/
theorem State.Answers.widthOverflow_cases (h : s.Answers i m (.failed .widthOverflow)) :
    (∃ n, i = .readUint n ∧ exceedsWidth s.cfg.W n = true ∧ m = 0) ∨
    (∃ signed z, i = .readExpGolomb signed ∧ s.FirstOneAfter z ∧ 2 * z + 1 ≤ Machine.remainingBits s ∧
      exceedsWidth s.cfg.W (2 * z + 1) = true ∧ m = 2 * z + 1) := by
  cases h with
  | readUintTooWide hw => exact .inl ⟨_, rfl, hw, rfl⟩
  | readExpGolombTooWide hz hle hw => exact .inr ⟨_, _, rfl, hz, hle, hw, rfl⟩

/-- With W = inf the width check never fires (41_multibit_readers.md R96). -/
theorem ne_inf_of_exceedsWidth {W : Width} {n : Nat} (h : exceedsWidth W n = true) : W ≠ .inf := by
  rintro rfl
  cases h

/-- LOAD waits in silence, or ends with OK or ILLEGAL, and never with WIDTH_OVERFLOW (40_cursor_primitive.md R70). -/
theorem exec_load_ne_widthOverflow (n : Nat) (s : State) :
    ∃ t, exec (.load n) s = .next t ∧ t.responses ≠ s.responses ++ [.failed .widthOverflow] := by
  rw [exec_load]
  rcases takePayload_cases ⟨n, []⟩ s with ⟨-, hwait⟩ | ⟨-, hall⟩
  · exact ⟨_, hwait, by simp⟩
  · refine ⟨_, hall.trans (completeLoad_eq ..), ?_⟩
    split <;> simp

/-- Of the commands only a LOAD above the capacity answers ILLEGAL, and it leaves the cursor as it is
(60_exceptions.md R133). -/
theorem exec_illegal_iff (hs : s.Inv) (hdata : ∀ n, i = .load n → n ≤ s.dataIn.length) :
    ∃ t, exec i s = .next t ∧
      (t.responses = s.responses ++ [.failed .illegal] ↔ ∃ n, i = .load n ∧ s.cfg.CAP < n) ∧
      (t.responses = s.responses ++ [.failed .illegal] → t.BUF = s.BUF ∧ t.LEN = s.LEN ∧ t.POS = s.POS) := by
  by_cases hi : isCursorCommand i = true
  case pos =>
    obtain ⟨m, r, h⟩ := exists_answers s hi
    have hne := mt (State.answered_responses_iff (s := s) (p := s.POS + m)).1 h.ne_illegal
    refine ⟨_, exec_of_answers hs h, iff_of_false hne ?_, fun hill => absurd hill hne⟩
    rintro ⟨n, rfl, -⟩
    cases hi
  case neg =>
    obtain ⟨n, rfl⟩ := exists_load_of_not_isCursorCommand hi
    refine ⟨_, exec_load_of_payload (hdata n rfl), ?_⟩
    split
    case isTrue hbig => exact ⟨iff_of_true rfl ⟨n, rfl, hbig⟩, fun _ => ⟨rfl, rfl, rfl⟩⟩
    case isFalse hfits => simpa using hfits

end Failures

theorem reserved_of_decode_error {c : Word} {e : DecodeError} (h : decode c = .error e) :
    ReservedOpcode c ∨ ReservedArgument c := by
  by_contra hres
  obtain ⟨i, hi⟩ := exists_decode_ok_iff.2 hres
  rw [h] at hi
  cases hi

/-- Settles O17: a word that does not decode is reserved and changes nothing, and of the commands only an oversize LOAD
answers ILLEGAL. -/
theorem illegalExactlyForReservedWordsAndOversizeLoads :
    Obligations.IllegalExactlyForReservedWordsAndOversizeLoads := by
  intro s c rest hs hreset hprogress hcmd hdata
  have hf := fetch_word hreset hprogress hcmd
  cases hd : decode c with
  | error e =>
    exact ⟨_, step_illegalWord hf hd, iff_of_true rfl (.inl (reserved_of_decode_error hd)), fun _ => ⟨rfl, rfl, rfl⟩⟩
  | ok i =>
    have hres := exists_decode_ok_iff.1 ⟨i, hd⟩
    obtain ⟨t, ht, hiff, hsame⟩ := exec_illegal_iff (i := i) (State.Inv_setCommands hs rest) fun n hn =>
      hdata n (hd.trans (congrArg Except.ok hn))
    refine ⟨t, (step_command hf hd).trans ht, hiff.trans ?_, hsame⟩
    rw [or_iff_right hres]
    simp only [Except.ok.injEq, State.setCommands_cfg]

/-- Settles O42: the two closed forms that answer WIDTH_OVERFLOW, and the first 1 being unique; LOAD never does. -/
theorem widthOverflowExactlyWhenTheFoldIsTooWide : Obligations.WidthOverflowExactlyWhenTheFoldIsTooWide := by
  intro s i hs
  by_cases hi : isCursorCommand i = true
  case neg =>
    obtain ⟨n, rfl⟩ := exists_load_of_not_isCursorCommand hi
    obtain ⟨t, ht, hne⟩ := exec_load_ne_widthOverflow n s
    exact ⟨t, ht, iff_of_false hne (by simp), fun h => absurd h hne⟩
  case pos =>
    obtain ⟨m, r, h⟩ := exists_answers s hi
    refine ⟨_, exec_of_answers hs h, ?_, ?_⟩ <;> rw [State.answered_responses_iff]
    · constructor
      · rintro rfl
        rcases h.widthOverflow_cases with ⟨n, hn, hw, -⟩ | ⟨signed, z, hz, hfirst, hle, hw, -⟩
        · exact .inl ⟨n, hn, hw⟩
        · exact .inr ⟨signed, z, hz, hfirst, hle, hw⟩
      · rintro (⟨n, rfl, hw⟩ | ⟨signed, z, rfl, hfirst, hle, hw⟩)
        · exact h.response_unique hs (.readUintTooWide hw)
        · exact h.response_unique hs (.readExpGolombTooWide hfirst hle hw)
    · rintro rfl
      rcases h.widthOverflow_cases with ⟨n, rfl, hw, rfl⟩ | ⟨signed, z, rfl, hfirst, -, hw, rfl⟩
      · exact ⟨ne_inf_of_exceedsWidth hw, fun _ _ => State.answered_same rfl _, fun _ _ h => by cases h⟩
      · refine ⟨ne_inf_of_exceedsWidth hw, (fun _ h => by cases h), fun _ y _ hy => ?_⟩
        rw [hfirst.unique hy]

/-- Settles O43: decoding comes before execution, the width check of READ_UINT before its bits, and the bits of an
Exp-Golomb code before its width check. -/
theorem failuresAreDetectedInOrder : Obligations.FailuresAreDetectedInOrder :=
  ⟨fun _ => executesAsIllegal_of_reserved, fun _ _ => exec_readUint_tooWide,
    fun _ signed z hs hz hshort => exec_endOfStream (i := .readExpGolomb signed) hs (.inr ⟨z, hz, hshort⟩)⟩

/-! ## The exhausted unit (60_exceptions.md R139) -/

section ExhaustedUnit
variable {s : State}

/-- At the end of the data a command that needs a bit answers END_OF_STREAM, and nothing else changes. -/
theorem exec_needsMore_exhausted {i : Instr} (hs : s.Inv) (hend : s.POS = 8 * s.LEN) (h : NeedsMoreThanRemains i s) :
    exec i s = .next (s.deliver (.failed .endOfStream)) := by
  rw [exec_endOfStream hs h, State.answered_same hend]

/-- READ_UINT 0 takes no bit and answers 0, its fold never being too wide (41_multibit_readers.md R94). -/
theorem exec_readUint_zero (hs : s.Inv) :
    exec (.readUint 0) s = .next (s.deliver (.ok (.result (unsignedResult s.cfg.W 0)))) :=
  exec_of_answers hs (.readUint (Config.width_of_legal (State.Inv_legal hs) (Nat.zero_le 8)) (Nat.zero_le _))

/-- A LOAD within the capacity answers OK and leaves the unit exhausted exactly when it carries no byte
(40_cursor_primitive.md R70, 10_state.md R18). -/
theorem exec_load_exhausted_iff {n : Nat} (hcap : n ≤ s.cfg.CAP) (hdata : n ≤ s.dataIn.length) :
    ∃ t, exec (.load n) s = .next t ∧ t.responses = s.responses ++ [.ok .empty] ∧ (exhausted t = true ↔ n = 0) := by
  rw [exec_load_of_payload hdata, if_neg (Nat.not_lt.2 hcap)]
  refine ⟨_, rfl, rfl, ?_⟩
  rw [exhausted_iff, State.deliver_LEN, State.deliver_POS, State.construct_LEN, State.construct_POS]
  omega

end ExhaustedUnit

/-- Settles O44: no bit remains, so every command that needs one fails where POS stands, and a LOAD of `n` bytes leaves
`8 * n` bits. -/
theorem exhaustedUnitFailsAgainUntilLoaded : Obligations.ExhaustedUnitFailsAgainUntilLoaded := by
  intro s hs hend
  have hrem : remainingBits s = 0 := remainingBits_eq_zero_iff.2 hend.ge
  have hbyte : remainingBits s < 8 := by omega
  refine ⟨exec_needsMore_exhausted (i := .readBit) hs hend hrem, exec_needsMore_exhausted (i := .readByte) hs hend hbyte,
    fun _ => exec_expGolomb_exhausted hs hend, fun n hn => ⟨?_, ?_, fun hw => ?_⟩, rfl, rfl, exec_readUint_zero hs, ?_,
    fun n => exec_load_exhausted_iff⟩
  · have hbits : remainingBits s < n := by omega
    exact exec_needsMore_exhausted (i := .readBits n) hs hend hbits
  · have hbytes : remainingBits s < 8 * n := by omega
    exact exec_needsMore_exhausted (i := .readBytes n) hs hend hbytes
  · have hbits : remainingBits s < n := by omega
    exact exec_needsMore_exhausted (i := .readUint n) hs hend ⟨hw, hbits⟩
  · rw [exec_remainingBits, hrem]; rfl

end Sys2Proof.Machine

/-! PROOFS of the family 70_reset_and_hazards.md: the empty cursor that a reset leaves. A reset may be asserted in a state
that breaks the invariant, and the parameters and the buffer are left alone, so nothing here assumes it: an exhausted unit
reads no byte. -/

namespace Sys2Proof.Machine

/-! ## The exhausted unit in every state (40_cursor_primitive.md R73) -/

section NoBitRemains
variable {s : State}

theorem takeBits_exhausted {n : Nat} (h : 8 * s.LEN ≤ s.POS) (hn : 0 < n) :
    takeBits n s = .failed .endOfStream s := by
  cases n with
  | zero => exact absurd hn (lt_irrefl 0)
  | succ n => rw [takeBits, nextBit_exhausted h, Taken.andThen_failed]

theorem takeByte_exhausted (h : 8 * s.LEN ≤ s.POS) : takeByte s = .failed .endOfStream s := by
  rw [takeByte, takeBits_exhausted h (by decide), Taken.andThen_failed]

theorem takeBytes_exhausted {n : Nat} (h : 8 * s.LEN ≤ s.POS) (hn : 0 < n) :
    takeBytes n s = .failed .endOfStream s := by
  cases n with
  | zero => exact absurd hn (lt_irrefl 0)
  | succ n => rw [takeBytes, takeByte_exhausted h, Taken.andThen_failed]

theorem takeWorkingSequence_exhausted (h : 8 * s.LEN ≤ s.POS) :
    takeWorkingSequence s = .failed .endOfStream s := by
  rw [takeWorkingSequence, remainingBits_eq_zero_iff.2 h, scanPrefix, nextBit_exhausted h, Taken.andThen_failed,
    Taken.andThen_failed]

/-- Where no bit remains a command that needs one answers END_OF_STREAM and changes nothing else, whatever the buffer
holds; `exec_needsMore_exhausted` asks for the invariant. -/
theorem exec_endOfStream_of_exhausted {i : Instr} (h : 8 * s.LEN ≤ s.POS) (hi : NeedsMoreThanRemains i s) :
    exec i s = .next (s.deliver (.failed .endOfStream)) := by
  cases i with
  | load n => exact hi.elim
  | readBit => rw [exec, execReadBit, nextBit_exhausted h]; rfl
  | readBits n => rw [exec, execReadBits, takeBits_exhausted h (Nat.zero_lt_of_lt hi)]; rfl
  | readUint n =>
    obtain ⟨hw, hn⟩ := hi
    rw [exec, execReadUint, hw, takeBits_exhausted h (Nat.zero_lt_of_lt hn)]; rfl
  | readByte => rw [exec, execReadByte, takeByte_exhausted h]; rfl
  | readBytes n =>
    have hn : remainingBits s < 8 * n := hi
    rw [exec, execReadBytes, takeBytes_exhausted h (by omega)]; rfl
  | readExpGolomb signed => rw [exec, execReadExpGolomb, takeWorkingSequence_exhausted h]; rfl
  | remainingBits => exact hi.elim

end NoBitRemains

/-! ## Reads that need no bit -/

/-- No bit is never too wide, whatever W (41_multibit_readers.md R96). -/
theorem exceedsWidth_zero (W : Width) : exceedsWidth W 0 = false := by
  cases W with
  | finite w => exact decide_eq_false (Nat.not_lt_zero w)
  | inf => rfl

/-- READ_UINT 0 answers 0 in every state; `exec_readUint_zero` asks for the invariant. -/
theorem exec_readUint_zero_of_state (s : State) :
    exec (.readUint 0) s = .next (s.deliver (.ok (.result (unsignedResult s.cfg.W 0)))) := by
  rw [exec, execReadUint, exceedsWidth_zero]; rfl

/-! ## The reset event -/

section ResetEvent
variable (s : State)

@[simp] theorem remainingBits_resetEvent : remainingBits s.resetEvent = 0 := rfl

/-- After a reset no bit remains, so a command that needs one answers END_OF_STREAM (70_reset_and_hazards.md R150). -/
theorem exec_endOfStream_of_resetEvent {i : Instr} (hi : NeedsMoreThanRemains i s.resetEvent) :
    exec i s.resetEvent = .next (s.resetEvent.deliver (.failed .endOfStream)) :=
  exec_endOfStream_of_exhausted (remainingBits_eq_zero_iff.1 (remainingBits_resetEvent s)) hi

end ResetEvent

/-- Settles O2: whatever the reset cuts, the step ends in a reset event, which leaves no bit to read. -/
theorem resetEventGivesTheEmptyCursor : Obligations.ResetEventGivesTheEmptyCursor := by
  intro s hreset
  obtain ⟨t, hfetch, hcfg, -, hresponses, -⟩ := fetch_reset hreset
  have hstep : step s = .next t.resetEvent := step_reset hfetch
  have hbit := exec_endOfStream_of_resetEvent t (i := .readBit) rfl
  have hbyte := exec_endOfStream_of_resetEvent t (i := .readByte) (by simp [NeedsMoreThanRemains])
  have hgolomb (signed : Bool) := exec_endOfStream_of_resetEvent t (i := .readExpGolomb signed)
    (.inl (by simp [State.NoOneRemains]))
  have hbits (n : Nat) (hn : 0 < n) := exec_endOfStream_of_resetEvent t (i := .readBits n)
    (by simpa [NeedsMoreThanRemains] using hn)
  have hbytes (n : Nat) (hn : 0 < n) := exec_endOfStream_of_resetEvent t (i := .readBytes n)
    (by simpa [NeedsMoreThanRemains] using hn)
  have huint (n : Nat) (hn : 0 < n) (hw : exceedsWidth t.resetEvent.cfg.W n = false) :=
    exec_endOfStream_of_resetEvent t (i := .readUint n) ⟨hw, by simpa using hn⟩
  exact ⟨t.resetEvent, hstep, rfl, rfl, rfl, hresponses, hcfg, rfl, hbit, hbyte, hgolomb,
    fun n hn => ⟨hbits n hn, hbytes n hn, huint n hn⟩, rfl, rfl, exec_readUint_zero_of_state _⟩

end Sys2Proof.Machine

/-! PROOFS of what the other families leave: runs, what a step takes from the port, LOAD in pieces and read back, bit groups
across bytes, the folded and single-bit reads, the closed form of READ_EXP_GOLOMB, END_OF_STREAM, reset during a command,
and the fixed encodings. -/

namespace Sys2Proof.Machine

/-! ## What taking payload can do (30_encoding.md R58, R59) -/

/-- What taking payload for the LOAD `p` can come to: the LOAD waits, or discards its payload, or constructs a cursor.
`takePayload_takes` ties it to `takePayload`. -/
inductive State.TakesPayload (s : State) (p : LoadProgress) : State → Prop where
  | waits (h : p.taken.length + s.dataIn.length < p.count) :
    s.TakesPayload p ((s.takeData s.dataIn.length).setProgress (some ⟨p.count, p.taken ++ s.dataIn⟩))
  | discards (hbig : s.cfg.CAP < p.count) :
    s.TakesPayload p (((s.takeData (p.count - p.taken.length)).setProgress none).deliver (.failed .illegal))
  | loads (hfits : p.count ≤ s.cfg.CAP) :
    s.TakesPayload p ((((s.takeData (p.count - p.taken.length)).setProgress none).construct p.count
      (p.taken ++ s.dataIn.take (p.count - p.taken.length))).deliver (.ok .empty))

/-- Taking payload always goes on, whatever the state. -/
theorem takePayload_takes (p : LoadProgress) (s : State) : ∃ t, takePayload p s = .next t ∧ s.TakesPayload p t := by
  rcases takePayload_cases p s with ⟨hwait, heq⟩ | ⟨-, heq⟩
  · exact ⟨_, heq, .waits hwait⟩
  · refine ⟨_, heq.trans (completeLoad_eq ..), ?_⟩
    split
    case isTrue hbig => exact .discards hbig
    case isFalse hfits => exact .loads (Nat.not_lt.1 hfits)

section TakesPayload
variable {s t : State} {p : LoadProgress}

theorem State.TakesPayload.of_next (h : takePayload p s = .next t) : s.TakesPayload p t := by
  obtain ⟨u, hu, htakes⟩ := takePayload_takes p s
  exact next_unique hu h ▸ htakes

/-- Of the port only payload is taken, from the front of the channel. -/
theorem State.TakesPayload.port (h : s.TakesPayload p t) :
    t.cfg = s.cfg ∧ t.cmdIn = s.cmdIn ∧ t.resetIn = s.resetIn ∧ ∃ k, t.dataIn = s.dataIn.drop k := by
  cases h with
  | _ => exact ⟨rfl, rfl, rfl, _, rfl⟩

/-- Either the LOAD answers OK with a new cursor, or the cursor is as before. -/
theorem State.TakesPayload.cursor (h : s.TakesPayload p t) :
    (t.responses = s.responses ++ [.ok .empty] ∧ t.POS = 0) ∨
    ((t.BUF = s.BUF ∧ t.LEN = s.LEN ∧ t.POS = s.POS) ∧
      (t.responses = s.responses ∨ t.responses = s.responses ++ [.failed .illegal])) := by
  cases h with
  | waits => exact .inr ⟨⟨rfl, rfl, rfl⟩, .inl rfl⟩
  | discards => exact .inr ⟨⟨rfl, rfl, rfl⟩, .inr rfl⟩
  | loads => exact .inl ⟨rfl, rfl⟩

/-- At most one response comes of taking payload. -/
theorem State.TakesPayload.responses (h : s.TakesPayload p t) :
    t.responses = s.responses ∨ ∃ r, t.responses = s.responses ++ [r] := by
  rcases h.cursor with ⟨hok, -⟩ | ⟨-, hsame | hillegal⟩
  · exact .inr ⟨_, hok⟩
  · exact .inl hsame
  · exact .inr ⟨_, hillegal⟩

/-- A LOAD that waits on has answered nothing and left the cursor; one that ends has answered. -/
theorem State.TakesPayload.progress (h : s.TakesPayload p t) :
    (t.inProgress ≠ none → t.BUF = s.BUF ∧ t.LEN = s.LEN ∧ t.POS = s.POS ∧ t.responses = s.responses) ∧
    (t.inProgress = none → ∃ r, t.responses = s.responses ++ [r]) := by
  cases h with
  | waits => exact ⟨fun _ => ⟨rfl, rfl, rfl, rfl⟩, fun hnone => nomatch hnone⟩
  | discards => exact ⟨fun hsome => absurd rfl hsome, fun _ => ⟨_, rfl⟩⟩
  | loads => exact ⟨fun hsome => absurd rfl hsome, fun _ => ⟨_, rfl⟩⟩

/-- A byte at or above the count reads as before (log 5). -/
theorem State.TakesPayload.read_of_count_le (h : s.TakesPayload p t) (htaken : p.taken.length ≤ p.count) {a : Nat}
    (ha : p.count ≤ a) : t.BUF.read a = s.BUF.read a := by
  cases h with
  | waits | discards => rfl
  | loads =>
    refine (Memory.read_writeFrom ..).trans (dif_neg ?_)
    simp only [List.length_append, List.length_take]
    omega

end TakesPayload

/-! ## What a step can do -/

/-- What a step can come to, with what it takes from the port (30_encoding.md R63). `step_next_cases` ties it to
`step`. -/
inductive State.StepsTo (s : State) : State → Prop where
  | reset {u : State} (hline : s.resetIn ≠ .released) (hcfg : u.cfg = s.cfg) (hresponses : u.responses = s.responses)
      (hcmd : u.cmdIn = s.cmdIn ∨ ∃ c, s.cmdIn = c :: u.cmdIn) (hdata : ∃ k, u.dataIn = s.dataIn.drop k) :
    s.StepsTo u.resetEvent
  | idle (hline : s.resetIn = .released) : s.StepsTo s
  | resume {p : LoadProgress} {t : State} (hline : s.resetIn = .released) (h : s.TakesPayload p t) : s.StepsTo t
  | load {c : Word} {rest : List Word} {n : Nat} {t : State} (hline : s.resetIn = .released)
      (hcmd : s.cmdIn = c :: rest) (h : (s.setCommands rest).TakesPayload ⟨n, []⟩ t) : s.StepsTo t
  | answers {c : Word} {rest : List Word} {p : Nat} {r : Response} (hline : s.resetIn = .released)
      (hcmd : s.cmdIn = c :: rest) (hp : s.POS ≤ p) : s.StepsTo ((s.setCommands rest).answered p r)

/-- A word that is taken is a LOAD, or another command, or no command, which answers where POS stands. -/
theorem step_word_cases {s t : State} {c : Word} {rest : List Word} (hline : s.resetIn = .released)
    (hprogress : s.inProgress = none) (hcmd : s.cmdIn = c :: rest) (h : step s = .next t) : s.StepsTo t := by
  have hf := fetch_word hline hprogress hcmd
  cases hd : decode c with
  | error e =>
    rw [← next_unique (step_illegalWord hf hd) h]
    exact .answers (p := s.POS) hline hcmd le_rfl
  | ok i =>
    rw [step_command hf hd] at h
    by_cases hi : isCursorCommand i = true
    case pos =>
      obtain ⟨p, r, hp, rfl⟩ := exec_next_answered hi h
      exact .answers hline hcmd hp
    case neg =>
      obtain ⟨n, rfl⟩ := exists_load_of_not_isCursorCommand hi
      exact .load hline hcmd (.of_next h)

/-- Every step that goes on is one of these, in every state. -/
theorem step_next_cases {s t : State} (h : step s = .next t) : s.StepsTo t := by
  by_cases hline : s.resetIn = .released
  case neg =>
    obtain ⟨u, hf, hcfg, -, hresponses, hcmd, hdata⟩ := fetch_reset hline
    exact next_unique (step_reset hf) h ▸ .reset hline hcfg hresponses hcmd hdata
  cases hp : s.inProgress with
  | some p =>
    rw [step_resume (fetch_resume hline hp)] at h
    exact .resume hline (.of_next h)
  | none =>
    cases hc : s.cmdIn with
    | nil => exact next_unique (step_idle (fetch_idle hline hp hc)) h ▸ .idle hline
    | cons c rest => exact step_word_cases hline hp hc h

/-! ## Runs -/

/-- A command always goes on from a state that meets the invariant. -/
theorem exists_exec_next {s : State} (hs : s.Inv) (i : Instr) : ∃ t, exec i s = .next t := by
  by_cases hi : isCursorCommand i = true
  case pos =>
    obtain ⟨m, r, h⟩ := exists_answers s hi
    exact ⟨_, exec_of_answers hs h⟩
  case neg =>
    obtain ⟨n, rfl⟩ := exists_load_of_not_isCursorCommand hi
    obtain ⟨t, ht, -⟩ := takePayload_takes ⟨n, []⟩ s
    exact ⟨t, ht⟩

/-- A step always goes on from a state that meets the invariant. -/
theorem exists_step_next {s : State} (hs : s.Inv) : ∃ t, step s = .next t := by
  by_cases hline : s.resetIn = .released
  case neg =>
    obtain ⟨u, hf, -⟩ := fetch_reset hline
    exact ⟨_, step_reset hf⟩
  cases hp : s.inProgress with
  | some p =>
    obtain ⟨t, ht, -⟩ := takePayload_takes p s
    exact ⟨t, (step_resume (fetch_resume hline hp)).trans ht⟩
  | none =>
    cases hc : s.cmdIn with
    | nil => exact ⟨s, step_idle (fetch_idle hline hp hc)⟩
    | cons c rest =>
      have hf := fetch_word hline hp hc
      cases hd : decode c with
      | error e => exact ⟨_, step_illegalWord hf hd⟩
      | ok i =>
        obtain ⟨t, ht⟩ := exists_exec_next (State.Inv_setCommands hs rest) i
        exact ⟨t, (step_command hf hd).trans ht⟩

theorem run_succ {s t : State} (k : Nat) (h : step s = .next t) :
    Host.Core.run core (k + 1) s = Host.Core.run core k t := by
  have hstep : core.step s = .next t := h
  simp only [Host.Core.run, hstep]

/-- Settles O7, by induction on the length of the run: a step goes on and keeps the invariant. -/
theorem noRunEverStops : Obligations.NoRunEverStops := by
  intro s hs k
  induction k generalizing s with
  | zero => exact ⟨s, rfl, hs⟩
  | succ k ih =>
    obtain ⟨t, ht⟩ := exists_step_next hs
    rw [RunsSafely, run_succ k ht]
    exact ih t (stepKeepsTheInvariant s t hs ht)

/-! ## Every step, in every state -/

/-- Settles O4: a reset releases the line, and every other step starts with it released and leaves it. -/
theorem everyStepLeavesTheResetLineReleased : Obligations.EveryStepLeavesTheResetLineReleased := by
  constructor
  · intro s hline
    obtain ⟨u, hf, -⟩ := fetch_reset hline
    exact ⟨_, step_reset hf, rfl⟩
  · intro s t h
    cases step_next_cases h with
    | reset => rfl
    | idle hline => exact hline
    | resume hline htakes | load hline _ htakes =>
      obtain ⟨-, -, hreset, -⟩ := htakes.port
      exact hreset.trans hline
    | answers hline => exact hline

/-- Settles O51: of the steps that are no reset, only a LOAD that answers OK changes BUF or LEN or takes POS back. -/
theorem onlyLoadAndResetEndAnInstance : Obligations.OnlyLoadAndResetEndAnInstance := by
  intro s t h
  cases step_next_cases h with
  | reset hline => exact .inr (.inl hline)
  | idle => exact .inl ⟨rfl, rfl, le_rfl⟩
  | resume _ htakes | load _ _ htakes =>
    rcases htakes.cursor with hok | ⟨⟨hbuf, hlen, hpos⟩, -⟩
    · exact .inr (.inr hok)
    · exact .inl ⟨hbuf, hlen, hpos.ge⟩
  | answers _ _ hp => exact .inl ⟨rfl, rfl, hp⟩

/-- Settles O52, by cases of what a step can do. -/
theorem stepsOnlyConsumeThePort : Obligations.StepsOnlyConsumeThePort := by
  intro s t h
  cases step_next_cases h with
  | reset _ hcfg hresponses hcmd hdata => exact ⟨hcfg, hcmd, hdata, .inl hresponses⟩
  | idle => exact ⟨rfl, .inl rfl, ⟨0, rfl⟩, .inl rfl⟩
  | resume _ htakes =>
    obtain ⟨hcfg, hcmd, -, hdata⟩ := htakes.port
    exact ⟨hcfg, .inl hcmd, hdata, htakes.responses⟩
  | load _ hword htakes =>
    obtain ⟨hcfg, hcmd, -, hdata⟩ := htakes.port
    exact ⟨hcfg, .inr ⟨_, hword.trans (congrArg _ hcmd.symm)⟩, hdata, htakes.responses⟩
  | answers _ hword => exact ⟨rfl, .inr ⟨_, hword⟩, ⟨0, rfl⟩, .inr ⟨_, rfl⟩⟩

/-! ## LOAD -/

/-- Settles O11: a step of a unit whose LOAD waits takes payload and nothing else. -/
theorem wordsWaitWhileALoadIsInProgress : Obligations.WordsWaitWhileALoadIsInProgress := by
  intro s p hline hp
  obtain ⟨t, ht, htakes⟩ := takePayload_takes p s
  obtain ⟨hcfg, hcmd, hreset, -⟩ := htakes.port
  exact ⟨t, (step_resume (fetch_resume hline hp)).trans ht, hcmd, hcfg, hreset.trans hline, htakes.progress⟩

/-- Going on with the bytes taken is starting with those bytes in front of the channel: the payload and the rest of the
channel are cut at the same place (30_encoding.md R58). -/
theorem takePayload_resumed {n : Nat} {taken : List Byte} (s : State) (more : List Byte) (q : Option LoadProgress)
    (h : taken.length ≤ n) :
    takePayload ⟨n, taken⟩ { s with inProgress := q, dataIn := more } =
      takePayload ⟨n, []⟩ { s with dataIn := taken ++ more } := by
  have htake : (taken ++ more).take n = taken ++ more.take (n - taken.length) := by
    rw [List.take_append, List.take_of_length_le h]
  have hdrop : (taken ++ more).drop n = more.drop (n - taken.length) := by
    rw [List.drop_append, List.drop_of_length_le h, List.nil_append]
  simp only [takePayload, State.takeData, State.setProgress, List.length_nil, Nat.sub_zero, List.nil_append, htake,
    hdrop]

/-- Settles O20: the step after the LOAD goes on with the bytes taken. -/
theorem loadPayloadMayArriveInPieces : Obligations.LoadPayloadMayArriveInPieces := by
  intro s n more hline hshort
  have hwait : exec (.load n) s = .next { s with inProgress := some ⟨n, s.dataIn⟩, dataIn := [] } := by
    rcases takePayload_cases ⟨n, []⟩ s with ⟨-, heq⟩ | ⟨hall, -⟩
    · rw [exec_load, heq, State.takeData, List.drop_length]; rfl
    · exact absurd hall (by simpa using hshort)
  refine ⟨_, hwait, rfl, ?_⟩
  refine (step_resume ?_).trans (takePayload_resumed s more _ hshort.le)
  exact fetch_resume hline rfl

/-- Settles O21: a LOAD takes payload, with none taken before. -/
theorem loadChangesOnlyTheCursor : Obligations.LoadChangesOnlyTheCursor := by
  intro s t n h
  have htakes : s.TakesPayload ⟨n, []⟩ t := .of_next h
  obtain ⟨hcfg, hcmd, hreset, -⟩ := htakes.port
  refine ⟨hcfg, hcmd, hreset, fun a ha => htakes.read_of_count_le (Nat.zero_le n) ha, ?_⟩
  rcases htakes.cursor with ⟨hok, -⟩ | ⟨⟨hbuf, hlen, hpos⟩, hresponses⟩
  · exact .inl hok
  · exact .inr ⟨hbuf, hlen, hpos, hresponses⟩

section Construct
variable {s : State} {bytes : List Byte}

/-- A new cursor over `bytes` reads its bytes back. -/
theorem State.construct_read {j : Nat} (h : j < bytes.length) :
    (s.construct bytes.length bytes).BUF.read j = some bytes[j] :=
  (Memory.read_writeFrom_zero s.BUF h).trans (List.getElem?_eq_getElem h)

/-- The aligned groups of eight bits of a new cursor are its bytes (20_memory.md R34). -/
theorem State.construct_bytes :
    ((List.range bytes.length).map fun j => byteOfBits ((s.construct bytes.length bytes).group (8 * j) 8)) = bytes := by
  refine List.ext_getElem (by simp) fun j _ hj => ?_
  rw [List.getElem_map, List.getElem_range, byteOfBits_group_aligned (State.construct_read hj)]

/-- READ_BYTES of as many bytes as a new cursor has returns all of them, whatever the state was before. -/
theorem exec_readBytes_construct (r : Response) :
    exec (.readBytes bytes.length) ((s.construct bytes.length bytes).deliver r) =
      .next (((s.construct bytes.length bytes).deliver r).answered (8 * bytes.length) (.ok (.bytes bytes))) := by
  have hl : ((s.construct bytes.length bytes).deliver r).bufferLoaded := fun j hj =>
    Option.isSome_iff_exists.2 ⟨_, State.construct_read hj⟩
  have hbytes := takeBytes_got (n := bytes.length) hl (by simp)
  simp only [State.deliver_POS, State.construct_POS, Nat.zero_add] at hbytes
  rw [exec, execReadBytes, hbytes, Taken.andThen_got, Taken.finish_got]
  exact congrArg (fun bs => Host.Outcome.next (State.answered _ _ (.ok (.bytes bs)))) State.construct_bytes

end Construct

/-- Settles O22: LOAD constructs a cursor over the first `n` bytes of the channel. -/
theorem bytesReadAfterALoadAreItsPayload : Obligations.BytesReadAfterALoadAreItsPayload := by
  intro s n hdata hcap
  have hload := exec_load_of_payload hdata
  rw [if_neg (Nat.not_lt.2 hcap)] at hload
  refine ⟨_, hload, ?_⟩
  have hlen : (s.dataIn.take n).length = n := List.length_take_of_le hdata
  have hread := exec_readBytes_construct (s := (s.takeData n).setProgress none) (bytes := s.dataIn.take n) (.ok .empty)
  rwa [hlen] at hread

/-! ## Bit groups (20_memory.md R34, R36) -/

section Groups
variable (s : State)

/-- The value of a group read in two parts (20_memory.md R34). -/
theorem State.groupValue_add (p m n : Nat) :
    s.groupValue p (m + n) = s.groupValue p m * 2 ^ n + s.groupValue (p + m) n := by
  simp only [← State.fold_group, State.group_add, fold_append, State.length_group]

/-- The first part of a group is its value without the low bits. -/
theorem State.groupValue_first (p m n : Nat) : s.groupValue p m = s.groupValue p (m + n) / 2 ^ n := by
  rw [State.groupValue_add, Nat.add_comm, Nat.add_mul_div_right _ _ (Nat.two_pow_pos n),
    Nat.div_eq_of_lt (s.groupValue_lt _ n), Nat.zero_add]

/-- The second part of a group is its low bits. -/
theorem State.groupValue_second (p m n : Nat) : s.groupValue (p + m) n = s.groupValue p (m + n) % 2 ^ n := by
  rw [State.groupValue_add, Nat.mul_add_mod_self_right, Nat.mod_eq_of_lt (s.groupValue_lt _ n)]

/-- Eight bits from `off` bits into byte `j` on: the low bits of that byte, above the high bits of the next one
(20_memory.md R36). -/
theorem State.groupValue_unaligned {j off : Nat} {B C : Byte} (hoff : off ≤ 8) (hB : s.BUF.read j = some B)
    (hC : s.BUF.read (j + 1) = some C) :
    s.groupValue (8 * j + off) 8 = B.toNat * 2 ^ off % 256 + C.toNat / 2 ^ (8 - off) := by
  have hlow := s.groupValue_second (8 * j) off (8 - off)
  have hhigh := s.groupValue_first (8 * (j + 1)) off (8 - off)
  have hsplit := s.groupValue_add (8 * j + off) (8 - off) off
  have hnext : 8 * j + off + (8 - off) = 8 * (j + 1) := by omega
  have hbyte : 256 = 2 ^ (8 - off) * 2 ^ off := by rw [← pow_add, Nat.sub_add_cancel hoff]; rfl
  rw [Nat.add_sub_cancel' hoff, State.groupValue_aligned hB] at hlow
  rw [Nat.add_sub_cancel' hoff, State.groupValue_aligned hC] at hhigh
  rw [Nat.sub_add_cancel hoff, hnext, hlow, hhigh] at hsplit
  rw [hsplit, hbyte, Nat.mul_mod_mul_right]

end Groups

section AlignedReads
variable {s : State}

/-- A byte of the data is loaded (10_state.md R22 d). -/
theorem State.Inv_exists_read (hs : s.Inv) {j : Nat} (h : j < s.LEN) : ∃ B, s.BUF.read j = some B :=
  Option.isSome_iff_exists.1 (State.Inv_loaded hs j h)

/-- READ_BYTE at a byte boundary answers the byte of the buffer (20_memory.md R34). -/
theorem exec_readByte_aligned {j : Nat} {B : Byte} (hs : s.Inv) (hpos : s.POS = 8 * j) (hj : j < s.LEN)
    (hB : s.BUF.read j = some B) : exec .readByte s = .next (s.answered (s.POS + 8) (.ok (.byte B))) := by
  have hrem := State.pos_add_remaining hs
  have hexec := exec_of_answers hs (.readByte (by omega))
  rwa [congrArg (s.group · 8) hpos, byteOfBits_group_aligned hB] at hexec

/-- The aligned group of sixteen bits is two bytes of the buffer, the first the more significant (20_memory.md R34). -/
theorem State.groupValue_two_bytes {j : Nat} {B C : Byte} (hB : s.BUF.read j = some B)
    (hC : s.BUF.read (j + 1) = some C) : s.groupValue (8 * j) 16 = B.toNat * 256 + C.toNat := by
  rw [s.groupValue_add (8 * j) 8 8, State.groupValue_aligned hB, ← State.groupValue_aligned hC]; rfl

end AlignedReads

/-- Settles O30: a group's value splits as its bits do, and an aligned group of eight is a byte. -/
theorem groupsAreBigEndian : Obligations.GroupsAreBigEndian := by
  refine ⟨fun s n => exec_readUint_groupValue, fun s p m n hmn => ?_, fun s j hs hpos hj => ?_,
    fun s j hs hpos hj hw => ?_⟩
  · rw [← State.groupValue_add, Nat.add_sub_cancel' hmn]
  · obtain ⟨B, hB⟩ := State.Inv_exists_read hs hj
    exact ⟨B, hB, exec_readByte_aligned hs hpos hj hB⟩
  · obtain ⟨B, hB⟩ := State.Inv_exists_read hs (Nat.lt_of_succ_lt hj)
    obtain ⟨C, hC⟩ := State.Inv_exists_read hs hj
    have hrem := State.pos_add_remaining hs
    have hexec := exec_readUint_groupValue hs hw (by omega)
    rw [congrArg (s.groupValue · 16) hpos, State.groupValue_two_bytes hB hC] at hexec
    exact ⟨B, C, hB, hC, hexec⟩

/-- Settles O31: eight bits from an unaligned position end in the next byte, and without it fewer than eight remain. -/
theorem unalignedByteSpansTwoBytes : Obligations.UnalignedByteSpansTwoBytes := by
  intro s hs hoff
  have hrem := State.pos_add_remaining hs
  refine ⟨fun hnext => ?_, fun hlast => ?_⟩
  · obtain ⟨B, hB⟩ := State.Inv_exists_read hs (Nat.lt_of_succ_lt hnext)
    obtain ⟨C, hC⟩ := State.Inv_exists_read hs hnext
    have hvalue := s.groupValue_unaligned (Nat.mod_lt s.POS (by decide)).le hB hC
    rw [Nat.div_add_mod] at hvalue
    exact ⟨B, C, _, hB, hC, (byteOfBits_group_toNat s s.POS).trans hvalue,
      exec_of_answers hs (.readByte (by omega))⟩
  · have hshort : remainingBits s < 8 := by omega
    exact exec_endOfStream (i := .readByte) hs hshort

/-! ## Folded reads and single-bit reads -/

/-- A part of a group is the group that starts there. -/
theorem State.take_drop_group (s : State) (p : Nat) {j m n : Nat} (h : j + m ≤ n) :
    ((s.group p n).drop j).take m = s.group (p + j) m := by
  obtain ⟨k, rfl⟩ : ∃ k, n = j + (m + k) := ⟨n - (j + m), by omega⟩
  rw [State.group_add, State.group_add, List.drop_left' (s.length_group p j), List.take_left' (s.length_group _ m)]

/-- The bytes of a group, each folded from its eight bits (41_multibit_readers.md R100). -/
theorem State.bytes_of_group (s : State) (p n : Nat) :
    ((List.range n).map fun j => byteOfBits (s.group (p + 8 * j) 8)) =
      (List.range n).map fun j => BitVec.ofNat 8 (fold (((s.group p (8 * n)).drop (8 * j)).take 8)) := by
  refine List.map_congr_left fun j hj => ?_
  have hj := List.mem_range.1 hj
  rw [s.take_drop_group p (by omega), byteOfBits]

/-- Settles O32: the reads need the same bits, and fold the group that READ_BITS returns. -/
theorem foldedReadsAgreeWithReadBits : Obligations.FoldedReadsAgreeWithReadBits := by
  constructor
  · intro s n hs hw
    rcases Nat.lt_or_ge (remainingBits s) n with hshort | hle
    · exact .inr ⟨_, exec_endOfStream (i := .readBits n) hs hshort,
        exec_endOfStream (i := .readUint n) hs ⟨hw, hshort⟩⟩
    · exact .inl ⟨_, _, exec_of_answers hs (.readBits hle), exec_of_answers hs (.readUint hw hle)⟩
  · intro s n hs
    rcases Nat.lt_or_ge (remainingBits s) (8 * n) with hshort | hle
    · exact .inr ⟨_, exec_endOfStream (i := .readBits (8 * n)) hs hshort,
        exec_endOfStream (i := .readBytes n) hs hshort⟩
    · refine .inl ⟨_, _, exec_of_answers hs (.readBits hle), ?_⟩
      rw [← State.bytes_of_group]
      exact exec_of_answers hs (.readBytes hle)

@[simp] theorem State.group_deliver (s : State) (r : Response) (p n : Nat) :
    (s.deliver r).group p n = s.group p n := rfl

theorem execAll_append {is js : List Instr} {s t : State} (h : execAll is s = .next t) :
    execAll (is ++ js) s = execAll js t := by
  induction is generalizing s with
  | nil => exact congrArg (execAll js) (next_unique (o := execAll [] s) rfl h)
  | cons i is ih =>
    rw [execAll] at h
    cases hi : exec i s with
    | next u => rw [hi] at h; exact (execAll_cons hi).trans (ih h)
    | fault r => rw [hi] at h; cases h
    | refused r => rw [hi] at h; cases h

/-- Single-bit reads return the bits in order while bits remain (40_cursor_primitive.md R76). -/
theorem execAll_readBit_got {s : State} {k : Nat} (hs : s.Inv) (h : k ≤ remainingBits s) :
    execAll (List.replicate k .readBit) s =
      .next { s with POS := s.POS + k, responses := s.responses ++ (s.group s.POS k).map fun b => .ok (.bit b) } := by
  induction k generalizing s with
  | zero => simp [execAll]
  | succ k ih =>
    have hrem := State.pos_add_remaining hs
    have hstep := exec_of_answers hs (.readBit (by omega))
    have hnext : k ≤ remainingBits (s.answered (s.POS + 1) (.ok (.bit (s.BIT s.POS)))) :=
      Nat.le_sub_of_add_le (show k + (s.POS + 1) ≤ 8 * s.LEN by omega)
    rw [List.replicate_succ, execAll_cons hstep, ih (State.Inv_answered hs (by omega) _) hnext, State.group_succ]
    simp [State.answered, Nat.add_assoc, Nat.add_comm 1]

/-- Single-bit reads of an exhausted unit all fail (60_exceptions.md R139). -/
theorem execAll_readBit_exhausted {s : State} (m : Nat) (h : 8 * s.LEN ≤ s.POS) :
    execAll (List.replicate m .readBit) s =
      .next { s with responses := s.responses ++ List.replicate m (.failed .endOfStream) } := by
  induction m generalizing s with
  | zero => simp [execAll]
  | succ m ih =>
    have hstep := exec_endOfStream_of_exhausted (i := .readBit) h (remainingBits_eq_zero_iff.2 h)
    rw [List.replicate_succ, execAll_cons hstep, ih (s := s.deliver _) h]
    simp [State.deliver, List.replicate_succ]

/-- Settles O33: as many reads as bits remain reach the end, where every further one fails. -/
theorem singleBitReadsFollowTheStream : Obligations.SingleBitReadsFollowTheStream := by
  intro s hs
  refine ⟨fun k => execAll_readBit_got hs, fun m => ?_⟩
  have hrem := State.pos_add_remaining hs
  have hread := execAll_readBit_got hs le_rfl
  rw [hrem] at hread
  rw [List.replicate_add, execAll_append hread, execAll_readBit_exhausted m le_rfl]
  simp

/-! ## The Exp-Golomb code (42_exp_golomb.md R115 to R118, R121) -/

section Code
variable {s : State} {z : Nat}

/-- The working sequence folds to the power of two of its first 1, and the suffix (42_exp_golomb.md R121). -/
theorem State.FirstOneAfter.fold_eq (hz : s.FirstOneAfter z) :
    fold (s.group s.POS (2 * z + 1)) = 2 ^ z + s.groupValue (s.POS + (z + 1)) z := by
  obtain ⟨-, h1, h0⟩ := hz
  have hlen : 2 * z + 1 = z + (1 + z) := by omega
  have hzeros : s.groupValue s.POS z = 0 :=
    Finset.sum_eq_zero fun i hi => by rw [h0 i (Finset.mem_range.1 hi)]; exact Nat.zero_mul _
  have hone : s.groupValue (s.POS + z) 1 = 1 := by simp [State.groupValue, h1]
  rw [State.fold_group, hlen, State.groupValue_add, State.groupValue_add, hzeros, hone]
  simp [Nat.add_assoc]

/-- The code of a complete decode, from the suffix alone (42_exp_golomb.md R121). -/
theorem State.FirstOneAfter.code_eq (hz : s.FirstOneAfter z) :
    fold (s.group s.POS (2 * z + 1)) - 1 = 2 ^ z - 1 + s.groupValue (s.POS + (z + 1)) z := by
  rw [hz.fold_eq, Nat.sub_add_comm Nat.one_le_two_pow]

end Code

/-- Settles O35: the closed forms of READ_EXP_GOLOMB, with the code from the suffix. -/
theorem expGolombClosedForm : Obligations.ExpGolombClosedForm := by
  intro s signed hs
  refine ⟨fun hnone => exec_endOfStream (i := .readExpGolomb signed) hs (.inl hnone), ?_⟩
  rintro z k hz rfl
  have hk : 2 * (z + 1) - 1 = 2 * z + 1 := by omega
  rw [hk]
  refine ⟨fun hshort => exec_endOfStream (i := .readExpGolomb signed) hs (.inr ⟨z, hz, hshort⟩),
    fun hle hw => exec_of_answers hs (.readExpGolombTooWide hz hle hw), fun hle hw code hcode => ?_⟩
  obtain rfl : code = fold (s.group s.POS (2 * z + 1)) - 1 := hcode.trans hz.code_eq.symm
  have hexec := exec_of_answers hs (.readExpGolomb (signed := signed) hz hle hw)
  refine ⟨?_, ?_, ?_⟩
  · rintro rfl
    exact hexec
  · rintro rfl heven
    rwa [← signMap_of_even heven]
  · rintro rfl hodd
    rwa [← signMap_of_odd hodd]

theorem two_mul_signMap_of_even {code : Nat} (h : code % 2 = 0) : 2 * signMap code = -(code : Int) := by
  rw [signMap_of_even h]
  omega

theorem two_mul_signMap_of_odd {code : Nat} (h : code % 2 = 1) : 2 * signMap code = (code : Int) + 1 := by
  rw [signMap_of_odd h]
  omega

/-- A code is mapped to half its size, up or down (42_exp_golomb.md R115). -/
theorem two_mul_signMap_cases (code : Nat) :
    (code % 2 = 0 ∧ 2 * signMap code = -(code : Int)) ∨ (code % 2 = 1 ∧ 2 * signMap code = (code : Int) + 1) := by
  rcases Nat.mod_two_eq_zero_or_one code with h | h
  · exact .inl ⟨h, two_mul_signMap_of_even h⟩
  · exact .inr ⟨h, two_mul_signMap_of_odd h⟩

theorem signMap_of_pos {v : Int} (h : 0 < v) : signMap (2 * v - 1).toNat = v := by
  rcases two_mul_signMap_cases (2 * v - 1).toNat with ⟨hmod, hmap⟩ | ⟨hmod, hmap⟩ <;> omega

theorem signMap_of_nonpos {v : Int} (h : v ≤ 0) : signMap (-2 * v).toNat = v := by
  rcases two_mul_signMap_cases (-2 * v).toNat with ⟨hmod, hmap⟩ | ⟨hmod, hmap⟩ <;> omega

theorem signMap_injective : Function.Injective signMap := by
  intro a b hab
  have hb := two_mul_signMap_cases b
  rcases two_mul_signMap_cases a with ⟨-, ha⟩ | ⟨-, ha⟩ <;> omega

/-- Settles O38: the even codes map onto the integers up to 0 and the odd ones onto the positive ones. -/
theorem signMappingIsABijection : Obligations.SignMappingIsABijection := by
  refine ⟨⟨signMap_injective, fun v => ?_⟩, fun _ => two_mul_signMap_of_even, fun _ => two_mul_signMap_of_odd,
    fun _ => signMap_of_pos, fun _ => signMap_of_nonpos⟩
  rcases Int.lt_or_le 0 v with hpos | hnonpos
  · exact ⟨_, signMap_of_pos hpos⟩
  · exact ⟨_, signMap_of_nonpos hnonpos⟩

/-- A value below `2^z` in size is on a port of `2 * z + 1` bits or more as it is (42_exp_golomb.md R117). -/
theorem signedResult_signedValue_eq {W : Width} {z : Nat} {v : Int} (hw : exceedsWidth W (2 * z + 1) = false)
    (hlo : -(2 : Int) ^ z < v) (hhi : v < (2 : Int) ^ z) : (signedResult W v).signedValue = v := by
  cases W with
  | inf => rfl
  | finite w =>
    have hle : 2 * z + 1 ≤ w := Nat.not_lt.1 (of_decide_eq_false hw)
    have hpow : (2 : Int) ^ z ≤ (2 : Int) ^ (w - 1) := pow_le_pow_right₀ (by decide) (by omega)
    exact BitVec.toInt_ofInt_eq_self (by omega) (by omega) (by omega)

/-- The range of the code with `z` zeros before the first 1 (42_exp_golomb.md R118). -/
theorem State.FirstOneAfter.code_bounds {s : State} {z : Nat} (hz : s.FirstOneAfter z) :
    2 ^ z - 1 ≤ fold (s.group s.POS (2 * z + 1)) - 1 ∧
      fold (s.group s.POS (2 * z + 1)) - 1 ≤ 2 ^ (z + 1) - 2 := by
  have hlt := s.groupValue_lt (s.POS + (z + 1)) z
  have hcode := hz.code_eq
  rw [pow_succ]
  omega

/-- A code of at most `2^(z+1) - 2` maps to a value of at most `2^z - 1` in size (42_exp_golomb.md R118). -/
theorem signMap_bounds {code z : Nat} (h : code ≤ 2 ^ (z + 1) - 2) :
    -((2 : Int) ^ z - 1) ≤ signMap code ∧ signMap code ≤ (2 : Int) ^ z - 1 := by
  have hone : 1 ≤ 2 ^ z := Nat.one_le_two_pow
  have hcast : ((2 ^ z : Nat) : Int) = (2 : Int) ^ z := by push_cast; rfl
  rw [pow_succ] at h
  rw [← hcast]
  rcases two_mul_signMap_cases code with ⟨hmod, hmap⟩ | ⟨hmod, hmap⟩ <;> omega

/-- Settles O37: the code has at most `2 * k - 1` bits, and its signed value at most `k`. -/
theorem expGolombResultsFitThePort : Obligations.ExpGolombResultsFitThePort := by
  rintro s z k hs hz rfl hle hw
  have hk : 2 * (z + 1) - 1 = 2 * z + 1 := by omega
  rw [hk] at hle hw ⊢
  obtain ⟨hlo, hhi⟩ := hz.code_bounds
  obtain ⟨hvlo, hvhi⟩ := signMap_bounds hhi
  have hcode : fold (s.group s.POS (2 * z + 1)) - 1 < 2 ^ (2 * z + 1) :=
    (Nat.sub_le _ _).trans_lt ((s.fold_group _ _).trans_lt (s.groupValue_lt _ _))
  refine ⟨_, _, _, _, exec_of_answers hs (.readExpGolomb hz hle hw), exec_of_answers hs (.readExpGolomb hz hle hw),
    unsignedResult_onPort _ _, signedResult_onPort _ _, unsignedResult_unsignedValue_eq hw hcode,
    signedResult_signedValue_eq hw (by omega) (by omega), hlo, hhi, two_mul_signMap_of_even, two_mul_signMap_of_odd,
    fun hone => ?_, fun _ => ⟨hvlo, hvhi⟩⟩
  obtain rfl : z = 0 := Nat.succ.inj hone
  exact le_antisymm hvhi hvlo

/-! ## END_OF_STREAM -/

/-- The only closed form that answers END_OF_STREAM is that of a command that needs more bits than remain. -/
theorem State.Answers.needsMore {s : State} {i : Instr} {m : Nat} (h : s.Answers i m (.failed .endOfStream)) :
    NeedsMoreThanRemains i s := by
  cases h with
  | endOfStream hmore => exact hmore

/-- LOAD waits in silence, or ends with OK or ILLEGAL, and never with END_OF_STREAM (40_cursor_primitive.md R70). -/
theorem exec_load_ne_endOfStream (n : Nat) (s : State) :
    ∃ t, exec (.load n) s = .next t ∧ t.responses ≠ s.responses ++ [.failed .endOfStream] := by
  obtain ⟨t, ht, htakes⟩ := takePayload_takes ⟨n, []⟩ s
  refine ⟨t, ht, ?_⟩
  rcases htakes.cursor with ⟨hok, -⟩ | ⟨-, hsame | hillegal⟩
  · simp [hok]
  · simp [hsame]
  · simp [hillegal]

/-- Settles O41: END_OF_STREAM has one closed form, which takes every remaining bit; LOAD never answers it. -/
theorem endOfStreamExactlyWhenBitsRunOut : Obligations.EndOfStreamExactlyWhenBitsRunOut := by
  intro s i hs
  by_cases hi : isCursorCommand i = true
  case neg =>
    obtain ⟨n, rfl⟩ := exists_load_of_not_isCursorCommand hi
    obtain ⟨t, ht, hne⟩ := exec_load_ne_endOfStream n s
    exact ⟨t, ht, iff_of_false hne id, fun h => absurd h hne⟩
  case pos =>
    obtain ⟨m, r, h⟩ := exists_answers s hi
    refine ⟨_, exec_of_answers hs h, ?_, ?_⟩ <;> rw [State.answered_responses_iff]
    · constructor
      · rintro rfl
        exact h.needsMore
      · exact fun hmore => h.response_unique hs (.endOfStream hmore)
    · rintro rfl
      have hend : s.POS + m = 8 * s.LEN := by rw [h.eq_remaining, State.pos_add_remaining hs]
      exact ⟨hend, rfl, remainingBits_eq_zero_iff.2 hend.ge⟩

/-! ## Reset, the registers and the fixed encodings -/

/-- Settles O3: the reset is performed on the state without the word it cuts, if it cuts one. -/
theorem resetDuringACommandAbandonsIt : Obligations.ResetDuringACommandAbandonsIt := by
  intro s k hline
  have hstep := step_reset (fetch_during hline)
  exact ⟨fun c rest hprogress hcmd =>
      ⟨_, hstep, (s.takeCut_cmdIn_word k hprogress).trans (congrArg List.tail hcmd), rfl, rfl, rfl, rfl⟩,
    fun p hprogress => ⟨_, hstep, s.takeCut_cmdIn_waiting k hprogress, rfl, rfl, rfl, rfl⟩⟩

/-- The reset state of a legal build meets the invariant: nothing is loaded and no command is in progress. -/
theorem State.Inv_resetWith {c : Config} (h : c.legal = true) : (State.resetWith c).Inv :=
  ⟨h, Memory.wf_nil, fun _ ha => absurd ha (Nat.not_lt_zero _), fun _ hc => absurd hc List.not_mem_nil, Nat.zero_le _,
    le_rfl, State.progressOpen_none rfl⟩

/-- Settles O5: the reference build is legal. -/
theorem invariantHoldsAfterReset : Obligations.InvariantHoldsAfterReset :=
  ⟨fun _ => State.Inv_resetWith, State.Inv_resetWith (by decide)⟩

/-- Settles O8: LEN is at most CAP, POS at most `8 * LEN`. -/
theorem registersFitTheirWidths : Obligations.RegistersFitTheirWidths := by
  intro s hs
  have hcap := Config.capacity_of_legal (State.Inv_legal hs)
  have hlen := State.Inv_len hs
  have hpos := State.Inv_pos hs
  exact ⟨by omega, by omega, remainingBits_lt hs⟩

/-- Settles O9: the word is fetched and decoded, and the step is its command. -/
theorem stepRunsTheDecodedCommand : Obligations.StepRunsTheDecodedCommand :=
  fun _ _ _ _ hline hprogress hcmd hd => step_command (fetch_word hline hprogress hcmd) hd

/-- Settles O12: each word is the encoding of its command. -/
theorem wordsOfTheTableDecode : Obligations.WordsOfTheTableDecode :=
  ⟨decode_encode (i := .load 3) rfl, decode_encode (i := .readBit) rfl, decode_encode (i := .readBits 24) rfl,
    decode_encode (i := .readUint 65) rfl, decode_encode (i := .readByte) rfl,
    decode_encode (i := .readBytes 268435455) rfl, decode_encode (i := .readExpGolomb false) rfl,
    decode_encode (i := .readExpGolomb true) rfl, decode_encode (i := .remainingBits) rfl⟩

/-- Settles O18, code by code. -/
theorem statusCodesAreTheSpecs : Obligations.StatusCodesAreTheSpecs := ⟨fun _ => rfl, rfl, rfl, rfl⟩

end Sys2Proof.Machine
